-- ==== Sys2Proof/Word.lean ====
section
/-! DEFINITION. The word types of the block (spec/00_scope.md R9, R10; spec/30_encoding.md R70). -/

namespace Sys2Proof

/-- R10: "Every register, table entry, operand and result is a 64-bit unsigned bit vector." -/
abbrev Word := BitVec 64

/-- R50: each DMEM address holds one 8-bit byte. -/
abbrev Byte := BitVec 8

/-- R70: the header word H of a packet, 32 bits. -/
abbrev Header := BitVec 32

/-- R71, R84: the session index S, 4 bits. -/
abbrev SessionIndex := BitVec 4

end Sys2Proof
end

