-- ==== Sys2Proof/Config.lean ====
section
/-! DEFINITION. What an implementation of the block fixes (spec/00_scope.md R6) and the free values of the
model (spec/70_reset_and_hazards.md R215). -/

namespace Sys2Proof

/-- R6: REG_BITS, "a small closed set of unsigned integer sizes {8,16,32,64}". -/
inductive RegBits where
  | r8 | r16 | r32 | r64
deriving DecidableEq, Repr

/-- REG_BITS as a number. -/
def RegBits.toNat : RegBits → Nat
  | .r8 => 8
  | .r16 => 16
  | .r32 => 32
  | .r64 => 64

/-- R6: the parameters "the block takes ... as arguments". They are fixed for a machine: State carries them,
no step changes them, and a statement holds for every legal value of them (DESIGN CHOICE, safe, log entry 2). -/
structure Params where
  /-- REG_BITS: bounds the CRC width at construction (R113), and nothing else (R7). -/
  regBits : RegBits
  /-- NSESS: the number of session registers. -/
  nsess : Nat
  /-- MEM_SIZE: the number of bytes of DMEM. -/
  memSize : Nat
deriving DecidableEq, Repr

/-- R6, column "legal values": NSESS is 1 to 16, MEM_SIZE is 1 to 2^64. -/
abbrev Params.Legal (p : Params) : Prop :=
  (1 ≤ p.nsess ∧ p.nsess ≤ 16) ∧ (1 ≤ p.memSize ∧ p.memSize ≤ 2 ^ 64)

/-- R6, column "reference": the values the test vectors use. -/
def Params.reference : Params := { regBits := .r64, nsess := 4, memSize := 0x1000 }

/-- R215: a byte that a packet reads from a range written while the packet executes is "an unconstrained
draw". The n-th draw; nothing constrains it (a free value, log entry 11). -/
opaque Config.racedByte : Nat → Byte

end Sys2Proof
end

