-- ==== Sys2Proof/Syntax.lean ====
section
/-! DEFINITION. The commands of CRCCORE-1 (spec/30_encoding.md R79), one constructor per row of
spec/opcode_table.json. The fields have exactly the widths of R84. -/

namespace Sys2Proof

/-- The ten commands (R79) with their header fields and operands (R72 to R77, R84). -/
inductive Instr where
  /-- R103: reflect VALUE over its low NBITS bits. -/
  | refl (nbits : BitVec 7) (value : Word)
  /-- R112: construct the engine. -/
  | cfg (width : BitVec 7) (refin refout : Bool) (poly init xorout : Word)
  /-- R120: read one accelerator table entry. -/
  | tblrd (index : BitVec 8)
  /-- R150: open session S. -/
  | snew (sid : SessionIndex)
  /-- R151: feed whole bytes to session S. -/
  | upd (sid : SessionIndex) (addr len : Word)
  /-- R152: feed BITLEN bits to session S; BITLEN is read as `sint64` (R84). -/
  | updb (sid : SessionIndex) (addr len bitlen : Word)
  /-- R153: read the final CRC of session S. -/
  | fin (sid : SessionIndex)
  /-- R154: read the residue of session S. -/
  | res (sid : SessionIndex)
  /-- R170: CRC of a whole-byte buffer. -/
  | calcBytes (addr len : Word)
  /-- R171: CRC of the first BITLEN bits of a buffer. -/
  | calcb (addr len bitlen : Word)
deriving DecidableEq, Repr

end Sys2Proof
end

