-- ==== Sys2Proof/WellFormed.lean ====
section
/-! DEFINITION. Packets and assembly lines, and the checks that say which of them are well formed.
A term of `Instr` has fields of exactly the widths of spec/30_encoding.md R84, so every such term is well formed;
what can be ill formed is a packet with more than three operands (R70) and an assembly line with a value that
does not fit its field (R87). -/

namespace Sys2Proof

/-- R70: one packet as submitted, `SUBMIT(H, [OP0, ..., OPk-1])`. -/
structure Packet where
  header : Header
  operands : List Word
deriving DecidableEq, Repr

/-- R70: "0 <= k <= 3". -/
def Packet.wellFormed (p : Packet) : Bool := p.operands.length ≤ 3

/-- R37: the three registers the host can read. -/
inductive HostReg where
  | result | status | errhdr
deriving DecidableEq, Repr

/-- R87, R88: one line of assembly: the ten commands, the three pseudo-instructions, and the host action the
rule gives as its example. Fields are the numbers as written. -/
inductive AsmLine where
  | refl (nbits : Nat) (value : Int)
  | cfg (width refin refout : Nat) (poly init xorout : Int)
  | tblrd (index : Nat)
  | snew (sid : Nat)
  | upd (sid : Nat) (addr len : Int)
  | updb (sid : Nat) (addr len bitlen : Int)
  | fin (sid : Nat)
  | res (sid : Nat)
  | calcBytes (addr len : Int)
  | calcb (addr len bitlen : Int)
  | updbits (sid : Nat) (addr nbits : Int)
  | calcbits (addr nbits : Int)
  | updall (sid : Nat) (addr len : Int)
  | hostRead (reg : HostReg)
deriving DecidableEq, Repr

/-- R87: an operand of 64 bits. A negative number is read as two's complement, as the vectors of
spec/95_test_vectors.md 2.1 and 2.2 write it (`refl 64, -1`; DEDUCED, log entry 15). -/
def fitsOperand (v : Int) : Bool := -2 ^ 63 ≤ v && v < 2 ^ 64

/-- R87: BITLEN is within -2^63..2^63-1. -/
def fitsBitlen (v : Int) : Bool := -2 ^ 63 ≤ v && v < 2 ^ 63

/-- R87: "An assembler refuses a field value that does not fit its field". R88: NBITS of a pseudo-instruction
is not negative. -/
def AsmLine.wellFormed : AsmLine → Bool
  | .refl nbits value => nbits ≤ 127 && fitsOperand value
  | .cfg width refin refout poly init xorout =>
    width ≤ 127 && refin ≤ 1 && refout ≤ 1 && fitsOperand poly && fitsOperand init && fitsOperand xorout
  | .tblrd index => index ≤ 255
  | .snew sid => sid ≤ 15
  | .upd sid addr len => sid ≤ 15 && fitsOperand addr && fitsOperand len
  | .updb sid addr len bitlen => sid ≤ 15 && fitsOperand addr && fitsOperand len && fitsBitlen bitlen
  | .fin sid => sid ≤ 15
  | .res sid => sid ≤ 15
  | .calcBytes addr len => fitsOperand addr && fitsOperand len
  | .calcb addr len bitlen => fitsOperand addr && fitsOperand len && fitsBitlen bitlen
  | .updbits sid addr nbits => sid ≤ 15 && fitsOperand addr && 0 ≤ nbits && fitsBitlen nbits
  | .calcbits addr nbits => fitsOperand addr && 0 ≤ nbits && fitsBitlen nbits
  | .updall sid addr len => sid ≤ 15 && fitsOperand addr && fitsOperand len
  | .hostRead _ => true

end Sys2Proof
end

