-- ==== Sys2Proof/Decode.lean ====
section
/-! DEFINITION. Decoding and encoding of packets (spec/30_encoding.md R70 to R86), total on every header and
operand list, and the byte form of packets (R85). -/

namespace Sys2Proof

/-- Why the decoder rejects a packet. All but the last are `IllegalCommand` (R182); the last is a byte string
that is no packet at all (R85) and never reaches the block. -/
inductive DecodeError where
  /-- R82: OPC = 0x00 or 0x0B to 0xFF. -/
  | unassignedOpcode
  /-- R81: a reserved header bit is 1. -/
  | reservedBitSet
  /-- R80: the transaction carries a number of operands other than k. -/
  | wrongOperandCount
  /-- R70, R85: the length of the byte string is not 4 + 8k with k at most 3. -/
  | notAPacket
deriving DecidableEq, Repr

/-- The rows of the opcode map (R79) by name. -/
inductive Opcode where
  | refl | cfg | tblrd | snew | upd | updb | fin | res | calcBytes | calcb
deriving DecidableEq, Repr

/-- One row of the opcode map (R79). -/
structure OpcodeRow where
  op : Opcode
  /-- OPC. -/
  opc : BitVec 8
  /-- "match" -/
  pattern : Header
  mask : Header
  /-- The required operand count. -/
  k : Nat
deriving DecidableEq, Repr

/-- R79, row by row. -/
def opcodeMap : List OpcodeRow :=
  [ ⟨.refl,  0x01, 0x00000001, 0xFFF80FFF, 1⟩,
    ⟨.cfg,   0x02, 0x00000002, 0xFFE00FFF, 3⟩,
    ⟨.tblrd, 0x03, 0x00000003, 0xFFF00FFF, 0⟩,
    ⟨.snew,  0x04, 0x00000004, 0xFFFFF0FF, 0⟩,
    ⟨.upd,   0x05, 0x00000005, 0xFFFFF0FF, 2⟩,
    ⟨.updb,  0x06, 0x00000006, 0xFFFFF0FF, 3⟩,
    ⟨.fin,   0x07, 0x00000007, 0xFFFFF0FF, 0⟩,
    ⟨.res,   0x08, 0x00000008, 0xFFFFF0FF, 0⟩,
    ⟨.calcBytes,  0x09, 0x00000009, 0xFFFFFFFF, 2⟩,
    ⟨.calcb, 0x0A, 0x0000000A, 0xFFFFFFFF, 3⟩ ]

/-- R71: `OPC = H[7:0]`. -/
def opcOf (h : Header) : BitVec 8 := h.extractLsb' 0 8

/-- R86: "the row of rule R79 with OPC = opc, or none". -/
def rowOf (opc : BitVec 8) : Option OpcodeRow := opcodeMap.find? (fun row => row.opc == opc)

/-- R71: `S = H[11:8]`. -/
def sessionField (h : Header) : SessionIndex := h.extractLsb' 8 4

/-- R75, R76: the 7-bit field `H[18:12]` (WIDTH, NBITS). -/
def widthField (h : Header) : BitVec 7 := h.extractLsb' 12 7

/-- R77: `INDEX = H[19:12]`. -/
def indexField (h : Header) : BitVec 8 := h.extractLsb' 12 8

/-- R72 to R77: the instruction a packet of the given row stands for. The operand count is checked before. -/
def Packet.fields (p : Packet) : Opcode → Instr
  | .refl => .refl (widthField p.header) (p.operands.getD 0 0)
  | .cfg => .cfg (widthField p.header) (p.header.getLsbD 19) (p.header.getLsbD 20)
      (p.operands.getD 0 0) (p.operands.getD 1 0) (p.operands.getD 2 0)
  | .tblrd => .tblrd (indexField p.header)
  | .snew => .snew (sessionField p.header)
  | .upd => .upd (sessionField p.header) (p.operands.getD 0 0) (p.operands.getD 1 0)
  | .updb => .updb (sessionField p.header) (p.operands.getD 0 0) (p.operands.getD 1 0) (p.operands.getD 2 0)
  | .fin => .fin (sessionField p.header)
  | .res => .res (sessionField p.header)
  | .calcBytes => .calcBytes (p.operands.getD 0 0) (p.operands.getD 1 0)
  | .calcb => .calcb (p.operands.getD 0 0) (p.operands.getD 1 0) (p.operands.getD 2 0)

/-- R86: the decode function, total on every header and operand list. -/
def decode (p : Packet) : Except DecodeError Instr :=
  match rowOf (opcOf p.header) with
  | none => .error .unassignedOpcode
  | some row =>
    if p.header &&& row.mask ≠ row.pattern then .error .reservedBitSet
    else if p.operands.length ≠ row.k then .error .wrongOperandCount
    else .ok (p.fields row.op)

/-- R87, column "packet": the header of an instruction. For a packet that decodes, it is the header submitted
(log entry 9). -/
def Instr.header : Instr → Header
  | .refl nbits _ => 0x01#32 ||| (nbits.setWidth 32 <<< 12)
  | .cfg width refin refout _ _ _ =>
    0x02#32 ||| (width.setWidth 32 <<< 12) ||| ((BitVec.ofBool refin).setWidth 32 <<< 19) |||
      ((BitVec.ofBool refout).setWidth 32 <<< 20)
  | .tblrd index => 0x03#32 ||| (index.setWidth 32 <<< 12)
  | .snew sid => 0x04#32 ||| (sid.setWidth 32 <<< 8)
  | .upd sid _ _ => 0x05#32 ||| (sid.setWidth 32 <<< 8)
  | .updb sid _ _ _ => 0x06#32 ||| (sid.setWidth 32 <<< 8)
  | .fin sid => 0x07#32 ||| (sid.setWidth 32 <<< 8)
  | .res sid => 0x08#32 ||| (sid.setWidth 32 <<< 8)
  | .calcBytes _ _ => 0x09#32
  | .calcb _ _ _ => 0x0A#32

/-- R87, column "packet": the operands of an instruction, OP0 first. -/
def Instr.operands : Instr → List Word
  | .refl _ value => [value]
  | .cfg _ _ _ poly init xorout => [poly, init, xorout]
  | .tblrd _ => []
  | .snew _ => []
  | .upd _ addr len => [addr, len]
  | .updb _ addr len bitlen => [addr, len, bitlen]
  | .fin _ => []
  | .res _ => []
  | .calcBytes addr len => [addr, len]
  | .calcb addr len bitlen => [addr, len, bitlen]

/-- The encoder: the packet of an instruction (R87). -/
def encode (i : Instr) : Packet := { header := i.header, operands := i.operands }

/-! ## The byte form (R85) -/

/-- R85: a 32-bit word as 4 bytes in little-endian order. -/
def headerBytes (h : Header) : List Byte :=
  [h.extractLsb' 0 8, h.extractLsb' 8 8, h.extractLsb' 16 8, h.extractLsb' 24 8]

/-- R85: a 64-bit operand as 8 bytes in little-endian order. -/
def wordBytes (v : Word) : List Byte :=
  [v.extractLsb' 0 8, v.extractLsb' 8 8, v.extractLsb' 16 8, v.extractLsb' 24 8,
    v.extractLsb' 32 8, v.extractLsb' 40 8, v.extractLsb' 48 8, v.extractLsb' 56 8]

/-- R85: a packet as bytes: the header, then each operand, OP0 first. -/
def Packet.toBytes (p : Packet) : List Byte := headerBytes p.header ++ p.operands.flatMap wordBytes

/-- The operand doublewords of a byte string; `none` when its length is no multiple of 8. -/
def operandsOfBytes : List Byte → Option (List Word)
  | [] => some []
  | b0 :: b1 :: b2 :: b3 :: b4 :: b5 :: b6 :: b7 :: rest =>
    (operandsOfBytes rest).map (fun ops => (b7 ++ b6 ++ b5 ++ b4 ++ b3 ++ b2 ++ b1 ++ b0 : BitVec 64) :: ops)
  | _ => none

/-- R85, R70: the packet a byte string stands for, if it is one (4 + 8k bytes, k at most 3). -/
def Packet.ofBytes : List Byte → Option Packet
  | b0 :: b1 :: b2 :: b3 :: rest =>
    match operandsOfBytes rest with
    | some ops =>
      if ops.length ≤ 3 then some { header := (b3 ++ b2 ++ b1 ++ b0 : BitVec 32), operands := ops } else none
    | none => none
  | _ => none

/-- The decoder on bytes: total on any byte string, rejecting by name. -/
def decodeBytes (bs : List Byte) : Except DecodeError Instr :=
  match Packet.ofBytes bs with
  | none => .error .notAPacket
  | some p => decode p

/-! ## Words as spec/opcode_table.json numbers them -/

/-- R80: the operand count an opcode requires (0 for an unassigned one). -/
def operandCount (opc : BitVec 8) : Nat := ((rowOf opc).map OpcodeRow.k).getD 0

/-- The packet whose bits are w: bits 31..0 are the header, OPj is bits 95+64j..32+64j, as many operands as
the opcode requires (R80), every bit at or above nbits zero (log entry 16). -/
def Packet.ofTableWord (nbits w : Nat) : Packet :=
  let bits := w % 2 ^ nbits
  let header := BitVec.ofNat 32 bits
  { header := header
    operands := (List.range (operandCount (opcOf header))).map (fun j => BitVec.ofNat 64 (bits >>> (32 + 64 * j))) }

/-- The instruction the decoder reads from a packet whose bits are w: the packet laid out as bytes (R85) and
given to the decoder. -/
def decodeTableWord (nbits w : Nat) : Option Instr :=
  (decodeBytes (Packet.ofTableWord nbits w).toBytes).toOption

end Sys2Proof
end

