-- ==== Sys2Proof/Machine/State.lean ====
section
/-! DEFINITION. The state of the block and of the host that drives it (spec/10_state.md, spec/20_memory.md,
spec/70_reset_and_hazards.md R211), the error codes (spec/60_exceptions.md R181), the model's faults, and the
reset state. -/

namespace Sys2Proof.Machine

/-- R181: the error codes. Every one is a defined outcome of the block, not a model fault (R200). -/
inductive ErrorCode where
  | ok
  | illegalCommand
  | noEngine
  | invalidSession
  | invalidParameter
  | bitLengthOutOfRange
  | operandOutOfRange
  | accessFault
deriving DecidableEq, Repr

/-- The faults of the model. None is an outcome of the block: the rules make the first four unreachable (log
entry 10), and the last is an error of the host's program. -/
inductive Fault where
  /-- R133, R200: a tail-unit bit count outside 1..8 "is a model fault if a model ever meets it, and never a
  value". Raised by `bbbUpdate`. Safe. -/
  | tailBitCount
  /-- spec/93_implementation_defined.md 2: `reflect` inside the block with a width outside 1..64. Raised by
  `reflectUnit`. Safe. -/
  | reflectWidth
  /-- spec/93_implementation_defined.md 11: a read of a register that holds no value. Raised by
  `State.readOne`. Safe. -/
  | noValue
  /-- R50, R54: a DMEM address at or above MEM_SIZE does not exist. Raised by `State.memRead`. Safe. -/
  | noSuchAddress
  /-- R50: the host names a DMEM address that does not exist. Raised by `State.hostWrite`,
  `State.hostReadMem` and `runRace`. Safe. -/
  | hostAddress
deriving DecidableEq, Repr

/-- The refusals of the model. -/
inductive Refusal where
  /-- An instruction without a meaning. No arm of `exec` answers it: every command is modelled. Safe. -/
  | notModelled (mnemonic : String)
deriving DecidableEq, Repr

/-- The engine registers that hold a value while ENG.V = 1 (R22 to R29). -/
structure Engine where
  /-- ENG.W (R23). -/
  w : BitVec 7
  /-- ENG.RPOLY (R24). -/
  rpoly : Word
  /-- ENG.RINIT (R25). -/
  rinit : Word
  /-- ENG.XOROUT (R26). -/
  xorout : Word
  /-- ENG.RIN (R27). -/
  rin : Bool
  /-- ENG.ROUT (R28). -/
  rout : Bool
  /-- TBL[0..255] (R29). -/
  tbl : Vector Word 256
deriving DecidableEq, Repr

/-- DMEM as address and byte pairs: addresses strictly rising, no entry equal to what an unlisted address
reads as (`Memory.wf`). -/
abbrev Memory := List Host.Cell

/-- One operation of the host (R20, R51, R70, R210, R215). -/
inductive HostOp where
  /-- R70: submit a packet on the command port, and wait until SUBMIT returns (R78). -/
  | submit (p : Packet)
  /-- R37: read RESULT, STATUS or ERRHDR on the read port. -/
  | read (reg : HostReg)
  /-- R51: write one byte of DMEM, between packets. -/
  | write (addr : Word) (b : Byte)
  /-- R51: read one byte of DMEM, between packets. -/
  | readMem (addr : Word)
  /-- R210: assert the reset input between packets. -/
  | reset
  /-- R210: submit a packet and assert the reset input while it executes. -/
  | submitReset (p : Packet)
  /-- R215: submit a packet, the given bytes of DMEM being written while it executes. -/
  | submitRace (p : Packet) (writes : List (Word × Byte))
deriving DecidableEq, Repr

/-- What the host has seen (R221). -/
inductive Observation where
  | result (v : Word)
  | status (v : BitVec 32)
  | errhdr (v : Header)
  | dmem (addr : Word) (b : Byte)
deriving DecidableEq, Repr

/-- The state: the block's registers, DMEM, the parameters of the implementation, and the host's side. -/
structure State where
  /-- ENG.V and, while it is 1, the engine registers and TBL (R22 to R29). While ENG.V = 0 they "hold no value.
  A model must not give them one" (R22). -/
  eng : Option Engine
  /-- SESS[s].V and, while it is 1, SESS[s].REG (R31, R32). Slots at NSESS and above do not exist: they stay
  `none` and no command reaches them. -/
  sess : Vector (Option Word) 16
  /-- ONE.REG (R33): it holds no value between commands. -/
  oneReg : Option Word
  /-- RESULT (R34). -/
  result : Word
  /-- STATUS (R35). -/
  status : BitVec 32
  /-- ERRHDR (R36). -/
  errhdr : Header
  /-- DMEM (R50), which the host owns and the block only reads (R40, R51). -/
  dmem : Memory
  /-- REG_BITS, NSESS and MEM_SIZE (R6). -/
  params : Params
  /-- R21: "the host's list of operations". -/
  host : List HostOp
  /-- R21: the index of the next operation. -/
  pos : Nat
  /-- R221: what the host has read along the way, oldest first. -/
  seen : List Observation
  /-- The number of unconstrained draws taken so far (R215); the model's own. -/
  draws : Nat
deriving DecidableEq, Repr

/-- R211: the state right after reset. The block's registers hold what the rule's table gives. The parameters
are the reference values of R6 (DESIGN CHOICE, log entry 2), DMEM lists nothing (log entry 7), and the host has
no operations yet (log entry 13). -/
def State.reset : State :=
  { eng := none
    sess := Vector.replicate 16 none
    oneReg := none
    result := 0
    status := 0
    errhdr := 0
    dmem := []
    params := Params.reference
    host := []
    pos := 0
    seen := []
    draws := 0 }

end Sys2Proof.Machine
end

