-- ==== Sys2Proof/Machine/Flags.lean ====
section
/-! DEFINITION. The fields of STATUS (spec/10_state.md R35) and the recording of a packet's code
(spec/60_exceptions.md R181, R191). -/

namespace Sys2Proof.Machine

/-- R181: the number of each code. -/
def ErrorCode.code : ErrorCode → BitVec 4
  | .ok => 0
  | .illegalCommand => 1
  | .noEngine => 2
  | .invalidSession => 3
  | .invalidParameter => 4
  | .bitLengthOutOfRange => 5
  | .operandOutOfRange => 6
  | .accessFault => 7

/-- R35: `STATUS.LAST`, bits 3..0. -/
def statusLast (st : BitVec 32) : BitVec 4 := st.extractLsb' 0 4

/-- R35: `STATUS.ENGV`, bit 4. -/
def statusEngv (st : BitVec 32) : Bool := st.getLsbD 4

/-- R35: `STATUS.SEEN`, bits 23..16; bit k is `STATUS[16+k]`. -/
def statusSeen (st : BitVec 32) : BitVec 8 := st.extractLsb' 16 8

/-- R191: `STATUS.LAST <- c`. -/
def setLast (st : BitVec 32) (c : BitVec 4) : BitVec 32 := (st &&& 0xFFFFFFF0#32) ||| c.setWidth 32

/-- R191: `STATUS[16 + c] <- 1` when c is not 0. -/
def setSeen (st : BitVec 32) (c : BitVec 4) : BitVec 32 :=
  if c = 0 then st else st ||| (1#32 <<< (16 + c.toNat))

/-- R191: `STATUS.ENGV <- ENG.V`. -/
def setEngv (st : BitVec 32) (engV : Bool) : BitVec 32 :=
  (st &&& 0xFFFFFFEF#32) ||| ((BitVec.ofBool engV).setWidth 32 <<< 4)

/-- R191: STATUS after a packet that ends with code c, engV being ENG.V after the packet's own effects. -/
def recordStatus (st : BitVec 32) (c : ErrorCode) (engV : Bool) : BitVec 32 :=
  setEngv (setSeen (setLast st c.code) c.code) engV

end Sys2Proof.Machine
end

