-- ==== Sys2Proof/Machine/Operands.lean ====
section
/-! DEFINITION. Operand readings and exact comparisons (spec/00_scope.md R10, spec/30_encoding.md R84,
spec/43_table_update.md R140). -/

namespace Sys2Proof.Machine

/-- R10: `mask(n) = 2^n - 1`, exact for 0 <= n <= 64. -/
def mask (n : Nat) : Word := BitVec.ofNat 64 (2 ^ n - 1)

/-- R10: `lowByte(v) = v & 0xFF`. -/
def lowByte (v : Word) : Byte := v.extractLsb' 0 8

/-- R10: `sint64(v)`: `v - 2^64` if `v[63] = 1`, else `v`. -/
def sint64 (v : Word) : Int := if v.getLsbD 63 then (v.toNat : Int) - 2 ^ 64 else v.toNat

/-- R140: the bit length of the commands without a BITLEN operand: "UPD and CALC use `bl = -1`". -/
def wholeBuffer : Int := -1

/-- R140: `fullBytes` and `trailingBits`. For a non-negative bl, `bl / 8` is `bl >> 3` and `bl % 8` is
`bl & 7`. Every negative value means the whole buffer. -/
def decodeBitLength (bl : Int) (len : Nat) : Nat × Nat :=
  if 0 ≤ bl then (bl.toNat / 8, bl.toNat % 8) else (len, 0)

/-- R145: `bl >= 0 and bl > 8 * LEN`, exactly. -/
def bitLengthTooLong (bl : Int) (len : Word) : Bool := 0 ≤ bl && 8 * (len.toNat : Int) < bl

/-- R55: `ADDR + LEN > MEM_SIZE`, exactly, with no wrap-around. -/
def bufferOutside (memSize : Nat) (addr len : Word) : Bool := memSize < addr.toNat + len.toNat

/-- R114: the value exceeds `mask(WIDTH)`, exactly. -/
def exceedsMask (width : BitVec 7) (v : Word) : Bool := 2 ^ width.toNat - 1 < v.toNat

/-- R113: `WIDTH = 0 or WIDTH > 64 or WIDTH > REG_BITS`. -/
def widthIllegal (regBits : RegBits) (width : BitVec 7) : Bool :=
  width.toNat = 0 || 64 < width.toNat || regBits.toNat < width.toNat

end Sys2Proof.Machine
end

