-- ==== Sys2Proof/Machine/Ops.lean ====
section
/-! DEFINITION. The shared operations: DMEM reads and writes (spec/20_memory.md), session registers, the checks
of spec/60_exceptions.md R190, and the completion of a packet with its recording (R185, R191), which is what this
block has in place of taking an exception (R180). -/

namespace Sys2Proof.Machine

/-! ## DMEM -/

/-- What a DMEM byte that nothing has written reads as. DESIGN CHOICE, unsafe (log entry 7): the spec gives DMEM
no contents; its vectors take it as all zero. -/
def Memory.unlisted : Byte := 0

/-- The byte at an address. -/
def Memory.read : Memory → Nat → Byte
  | [], _ => Memory.unlisted
  | (a, b) :: rest, x => if a = x then b else Memory.read rest x

/-- Write one byte, keeping the canonical form. -/
def Memory.write : Memory → Nat → Byte → Memory
  | [], x, v => if v = Memory.unlisted then [] else [(x, v)]
  | (a, b) :: rest, x, v =>
    if a < x then (a, b) :: Memory.write rest x v
    else if a = x then (if v = Memory.unlisted then rest else (x, v) :: rest)
    else (if v = Memory.unlisted then (a, b) :: rest else (x, v) :: (a, b) :: rest)

/-- The canonical form: addresses strictly rising, no entry equal to what an unlisted address reads as. -/
abbrev Memory.wf (m : Memory) : Prop :=
  m.Pairwise (fun c d => c.1 < d.1) ∧ ∀ c ∈ m, c.2 ≠ Memory.unlisted

/-- Every listed address exists (R50). -/
abbrev Memory.within (m : Memory) (memSize : Nat) : Prop := ∀ c ∈ m, c.1 < memSize

/-! ## How a command ends -/

/-- Why a command does not complete normally: it raises an error code (R181), or the model meets a condition the
rules make unreachable (R200). -/
inductive Stop where
  | code (c : ErrorCode)
  | model (f : Fault)
deriving DecidableEq, Repr

/-- R11: `raise <Error>`. -/
def raise {α : Type} (c : ErrorCode) : Except Stop α := .error (.code c)

/-- A check: raise the code when the condition holds. -/
def raiseIf (bad : Bool) (c : ErrorCode) : Except Stop Unit := if bad then raise c else .ok ()

/-- ENG.V (R22). -/
def State.engV (s : State) : Bool := s.eng.isSome

/-- R191: the recording at the completion of a packet with code c and header h. -/
def State.complete (s : State) (c : ErrorCode) (h : Header) : State :=
  { s with
    status := recordStatus s.status c s.engV
    errhdr := if c = .ok then s.errhdr else h }

/-- R78, R185, R191: run a command's body on a state and complete the packet. The body's effects happen together,
at completion; a packet that raises a code has no effect but the recording. -/
def command (h : Header) (s : State) (body : Except Stop State) : Host.Outcome State Fault Refusal :=
  match body with
  | .ok t => .next (t.complete .ok h)
  | .error (.code c) => .next (s.complete c h)
  | .error (.model f) => .fault f

/-- R182: a packet the decoder rejects ends with `IllegalCommand`; no operand is interpreted. -/
def State.illegal (s : State) (h : Header) : State := s.complete .illegalCommand h

/-! ## The checks (R190) -/

/-- R183: `NoEngine` unless ENG.V = 1. -/
def State.requireEngine (s : State) : Except Stop Engine :=
  match s.eng with
  | some e => .ok e
  | none => raise .noEngine

/-- SESS[S]: `some r` when S < NSESS names an open session with register r (R31, R32). -/
def State.session (s : State) (sid : SessionIndex) : Option Word := s.sess[sid.toNat]'sid.isLt

/-- R184: `S >= NSESS`. -/
def State.noSuchSession (s : State) (sid : SessionIndex) : Bool := s.params.nsess ≤ sid.toNat

/-- R184: the register of an open session; `InvalidSession` when `S >= NSESS` or `SESS[S].V = 0`. -/
def State.requireSession (s : State) (sid : SessionIndex) : Except Stop Word :=
  if s.noSuchSession sid then raise .invalidSession
  else
    match s.session sid with
    | some r => .ok r
    | none => raise .invalidSession

/-- R150, R151: `SESS[S].REG <- r` with `SESS[S].V` at 1. -/
def State.setSession (s : State) (sid : SessionIndex) (r : Word) : State :=
  { s with sess := s.sess.set sid.toNat (some r) sid.isLt }

/-- R117: `SESS[s].V <- 0` for every s. -/
def State.closeSessions (s : State) : State := { s with sess := Vector.replicate 16 none }

/-! ## The scratch register (R33) -/

/-- `ONE.REG <- r`. -/
def State.writeOne (s : State) (r : Word) : State := { s with oneReg := some r }

/-- Read ONE.REG. -/
def State.readOne (s : State) : Except Stop Word :=
  match s.oneReg with
  | some r => .ok r
  | none => .error (.model .noValue)

/-- R33: ONE.REG "holds no value between commands". -/
def State.dropOne (s : State) : State := { s with oneReg := none }

/-! ## Reading a buffer -/

/-- R54: `MemRead(a, n)`, the n bytes from address a in address order, "defined only when `a + n <= MEM_SIZE`". -/
def State.memRead (s : State) (a n : Nat) : Except Stop (List Byte) :=
  if a + n ≤ s.params.memSize then .ok ((List.range n).map (fun j => s.dmem.read (a + j)))
  else .error (.model .noSuchAddress)

end Sys2Proof.Machine
end

