-- ==== Sys2Proof/Machine/Datapath.lean ====
section
/-! DEFINITION. The datapath: the bit step and the tail unit (spec/42_bit_serial.md), the accelerator table
(spec/41_construction.md R116), the bulk unit (spec/43_table_update.md) and the output stage
(spec/44_session.md R160, R161). -/

namespace Sys2Proof.Machine

/-- R130: `bitStep(r) = (r >> 1) ^ (r[0] = 1 ? ENG.RPOLY : 0)`, with the polynomial p for ENG.RPOLY. -/
def bitStep (p r : Word) : Word := (r >>> 1) ^^^ (if r.getLsbD 0 then p else 0)

/-- k bit steps. -/
def bitSteps (p : Word) : Nat → Word → Word
  | 0, r => r
  | k + 1, r => bitSteps p k (bitStep p r)

/-- R116: `TBL[i] = bitStep^8(zext_64(i))`: the index is not reflected (spec/90_conflicts.md C1). -/
def tableEntry (p : Word) (i : Byte) : Word := bitSteps p 8 (i.setWidth 64)

/-- R116: the whole table of a reflected polynomial. -/
def buildTable (p : Word) : Vector Word 256 := Vector.ofFn (fun i => tableEntry p (BitVec.ofFin i))

/-- R11: `TBL[i]`. -/
def Engine.entry (e : Engine) (i : Byte) : Word := e.tbl[i.toNat]'i.isLt

/-- R131, R141: "if `refin` is false, reflect the byte first". -/
def Engine.inputByte (e : Engine) (b : Byte) : Byte := if e.rin then b else refl8Rom b

/-- R131: the tail unit `bbbUpdate(r, b, k)`: reflect, mask, exclusive or, then exactly k bit steps; a k outside
1..8 faults (R133). -/
def bbbUpdate (e : Engine) (r : Word) (b : Byte) (k : Nat) : Except Stop Word :=
  if 1 ≤ k ∧ k ≤ 8 then
    .ok (bitSteps e.rpoly k (r ^^^ ((e.inputByte b).setWidth 64 &&& mask k)))
  else .error (.model .tailBitCount)

/-- R141: the fold of one whole byte: `r <- TBL[lowByte(r) ^ d] ^ (r >> 8)`. -/
def foldByte (e : Engine) (r : Word) (b : Byte) : Word :=
  e.entry (lowByte r ^^^ e.inputByte b) ^^^ (r >>> 8)

/-- R141: the bulk unit `tableUpdate(r, ADDR, LEN, bl)`. -/
def tableUpdate (e : Engine) (s : State) (r addr len : Word) (bl : Int) : Except Stop Word := do
  let (fullBytes, trailingBits) := decodeBitLength bl len.toNat
  let buf ← s.memRead addr.toNat (fullBytes + if 0 < trailingBits then 1 else 0)
  let r := (buf.take fullBytes).foldl (foldByte e) r
  if 0 < trailingBits then bbbUpdate e r (buf.getD fullBytes 0) trailingBits else return r

/-- R160: `residueOf(r) = (ENG.ROUT = 1) ? r : reflect(r, ENG.W)` (spec/90_conflicts.md C4). -/
def residueOf (e : Engine) (r : Word) : Except Stop Word :=
  if e.rout then .ok r else reflectUnit r e.w.toNat

/-- R161: `finalOf(r) = residueOf(r) ^ ENG.XOROUT`. -/
def finalOf (e : Engine) (r : Word) : Except Stop Word := do
  let v ← residueOf e r
  return v ^^^ e.xorout

end Sys2Proof.Machine
end

