-- ==== Sys2Proof/Machine/Construction.lean ====
section
/-! DEFINITION. Engine construction and the table read: CFG and TBLRD (spec/41_construction.md). -/

namespace Sys2Proof.Machine

/-- R112, R115: CFG: the checks of R113 and R114, the normalisation, the table, and the closing of every session
(R117). A check that fails changes nothing (R118). -/
def execCfg (width : BitVec 7) (refin refout : Bool) (poly init xorout : Word) (s : State) :
    Host.Outcome State Fault Refusal :=
  command (Instr.cfg width refin refout poly init xorout).header s do
    raiseIf (widthIllegal s.params.regBits width) .invalidParameter
    raiseIf (exceedsMask width poly || exceedsMask width init || exceedsMask width xorout) .invalidParameter
    let rp ← reflectUnit poly width.toNat
    let ri ← reflectUnit init width.toNat
    let e : Engine :=
      { w := width, rpoly := rp, rinit := ri, xorout := xorout, rin := refin, rout := refout, tbl := buildTable rp }
    return { s.closeSessions with eng := some e }

/-- R120: TBLRD. -/
def execTblrd (index : BitVec 8) (s : State) : Host.Outcome State Fault Refusal :=
  command (Instr.tblrd index).header s do
    let e ← s.requireEngine
    return { s with result := e.entry index }

end Sys2Proof.Machine
end

