-- ==== Sys2Proof/Machine/OneShot.lean ====
section
/-! DEFINITION. The one-shot commands CALC and CALCB (spec/45_oneshot.md). -/

namespace Sys2Proof.Machine

/-- R170, R171: the computation both commands share, in the scratch register ONE.REG (R33). -/
def oneShot (e : Engine) (addr len : Word) (bl : Int) (s : State) : Except Stop State := do
  let s₁ := s.writeOne e.rinit
  let r₁ ← s₁.readOne
  let r₂ ← tableUpdate e s₁ r₁ addr len bl
  let s₂ := s₁.writeOne r₂
  let r₃ ← s₂.readOne
  let v ← finalOf e r₃
  return { s₂.dropOne with result := v }

/-- R170: CALC: the CRC of a whole-byte buffer. -/
def execCalc (addr len : Word) (s : State) : Host.Outcome State Fault Refusal :=
  command (Instr.calcBytes addr len).header s do
    let e ← s.requireEngine
    raiseIf (bufferOutside s.params.memSize addr len) .accessFault
    oneShot e addr len wholeBuffer s

/-- R171: CALCB: the CRC of the first BITLEN bits of a buffer. -/
def execCalcb (addr len bitlen : Word) (s : State) : Host.Outcome State Fault Refusal :=
  command (Instr.calcb addr len bitlen).header s do
    let e ← s.requireEngine
    raiseIf (bitLengthTooLong (sint64 bitlen) len) .bitLengthOutOfRange
    raiseIf (bufferOutside s.params.memSize addr len) .accessFault
    oneShot e addr len (sint64 bitlen) s

end Sys2Proof.Machine
end

