-- ==== Sys2Proof/Machine/Session.lean ====
section
/-! DEFINITION. The session commands SNEW, UPD, UPDB, FIN and RES (spec/44_session.md). -/

namespace Sys2Proof.Machine

/-- R150: SNEW: open session S, also when it is open already. -/
def execSnew (sid : SessionIndex) (s : State) : Host.Outcome State Fault Refusal :=
  command (Instr.snew sid).header s do
    let e ← s.requireEngine
    raiseIf (s.noSuchSession sid) .invalidSession
    return s.setSession sid e.rinit

/-- R151: UPD: feed whole bytes to session S. -/
def execUpd (sid : SessionIndex) (addr len : Word) (s : State) : Host.Outcome State Fault Refusal :=
  command (Instr.upd sid addr len).header s do
    let e ← s.requireEngine
    let r ← s.requireSession sid
    raiseIf (bufferOutside s.params.memSize addr len) .accessFault
    let r' ← tableUpdate e s r addr len wholeBuffer
    return s.setSession sid r'

/-- R152: UPDB: feed BITLEN bits to session S. -/
def execUpdb (sid : SessionIndex) (addr len bitlen : Word) (s : State) : Host.Outcome State Fault Refusal :=
  command (Instr.updb sid addr len bitlen).header s do
    let e ← s.requireEngine
    let r ← s.requireSession sid
    raiseIf (bitLengthTooLong (sint64 bitlen) len) .bitLengthOutOfRange
    raiseIf (bufferOutside s.params.memSize addr len) .accessFault
    let r' ← tableUpdate e s r addr len (sint64 bitlen)
    return s.setSession sid r'

/-- R153: FIN: read the final CRC of session S. -/
def execFin (sid : SessionIndex) (s : State) : Host.Outcome State Fault Refusal :=
  command (Instr.fin sid).header s do
    let e ← s.requireEngine
    let r ← s.requireSession sid
    let v ← finalOf e r
    return { s with result := v }

/-- R154: RES: read the residue of session S. -/
def execRes (sid : SessionIndex) (s : State) : Host.Outcome State Fault Refusal :=
  command (Instr.res sid).header s do
    let e ← s.requireEngine
    let r ← s.requireSession sid
    let v ← residueOf e r
    return { s with result := v }

end Sys2Proof.Machine
end

