-- ==== Sys2Proof/Machine/Dispatch.lean ====
section
/-! DEFINITION. One arm per command: each calls its own meaning. -/

namespace Sys2Proof.Machine

def exec (i : Instr) (s : State) : Host.Outcome State Fault Refusal :=
  match i with
  | .refl nbits value => Sys2Proof.Machine.execRefl nbits value s
  | .cfg width refin refout poly init xorout => Sys2Proof.Machine.execCfg width refin refout poly init xorout s
  | .tblrd index => Sys2Proof.Machine.execTblrd index s
  | .snew sid => Sys2Proof.Machine.execSnew sid s
  | .upd sid addr len => Sys2Proof.Machine.execUpd sid addr len s
  | .updb sid addr len bitlen => Sys2Proof.Machine.execUpdb sid addr len bitlen s
  | .fin sid => Sys2Proof.Machine.execFin sid s
  | .res sid => Sys2Proof.Machine.execRes sid s
  | .calcBytes addr len => Sys2Proof.Machine.execCalc addr len s
  | .calcb addr len bitlen => Sys2Proof.Machine.execCalcb addr len bitlen s

end Sys2Proof.Machine
end

