-- ==== Sys2Proof/Machine/HostPort.lean ====
section
/-! DEFINITION. The host's operations other than running a packet: the read port (spec/10_state.md R37), DMEM
accesses by the host (spec/20_memory.md R51), reset (spec/70_reset_and_hazards.md R210, R211) and the race of
R215. -/

namespace Sys2Proof.Machine

/-- R21: the host's next operation, if one is left. -/
def State.nextOp (s : State) : Option HostOp := s.host[s.pos]?

/-- R21: the index "goes up by 1 for each operation. It never wraps". -/
def State.advance (s : State) : State := { s with pos := s.pos + 1 }

/-- The host has seen something (R221). -/
def State.observe (s : State) (o : Observation) : State := { s with seen := s.seen ++ [o] }

/-- R37: what the read port returns. -/
def State.readPort (s : State) : HostReg → Observation
  | .result => .result s.result
  | .status => .status s.status
  | .errhdr => .errhdr s.errhdr

/-- R210, R211: the block enters the reset state. DMEM and the parameters are not state of the block, and the host
is another agent: they stay. -/
def State.enterReset (s : State) : State :=
  { s with
    eng := none
    sess := Vector.replicate 16 none
    oneReg := none
    result := 0
    status := 0
    errhdr := 0 }

/-- R210: "that packet is abandoned with no effect, and the block enters the reset state". -/
def State.abandonByReset (s : State) (_p : Packet) : State := s.enterReset

/-- R50: the address exists. -/
def State.addressExists (s : State) (a : Word) : Bool := a.toNat < s.params.memSize

/-- R51: the host reads one byte of DMEM. -/
def State.hostReadMem (s : State) (a : Word) : Host.Outcome State Fault Refusal :=
  if s.addressExists a then .next (s.observe (.dmem a (s.dmem.read a.toNat))) else .fault .hostAddress

/-- DMEM after the given bytes are written, in order. -/
def Memory.writes (m : Memory) : List (Word × Byte) → Memory
  | [] => m
  | (a, b) :: rest => Memory.writes (m.write a.toNat b) rest

/-- R51: the host writes one byte of DMEM. -/
def State.hostWrite (s : State) (a : Word) (b : Byte) : Host.Outcome State Fault Refusal :=
  if s.addressExists a then .next { s with dmem := s.dmem.write a.toNat b } else .fault .hostAddress

/-- R215: the given addresses with an unconstrained draw each, numbered from n. -/
def drawBytes (n : Nat) : List (Word × Byte) → List (Word × Byte)
  | [] => []
  | (a, _) :: rest => (a, Config.racedByte n) :: drawBytes (n + 1) rest

/-- R215: DMEM as a packet sees it while the given bytes are written: at each written address an unconstrained
draw. Every draw has a number of its own. -/
def State.raceView (s : State) (writes : List (Word × Byte)) : State :=
  { s with
    dmem := s.dmem.writes (drawBytes s.draws writes)
    draws := s.draws + writes.length }

/-- R215: after the packet, DMEM holds what it held before with the host's writes made (the block writes none of
it, R51). -/
def settleRace (before : Memory) (writes : List (Word × Byte)) (o : Host.Outcome State Fault Refusal) :
    Host.Outcome State Fault Refusal :=
  match o with
  | .next t => .next { t with dmem := before.writes writes }
  | .fault f => .fault f
  | .refused r => .refused r

end Sys2Proof.Machine
end

