-- ==== Sys2Proof/Machine/Run.lean ====
section
/-! DEFINITION. Performing one operation of the host: a submitted packet is decoded and runs to completion
(spec/30_encoding.md R78, R86), also while DMEM is written (spec/70_reset_and_hazards.md R215). -/

namespace Sys2Proof.Machine

/-- R78, R86: one packet: decode it, then run the command; a packet the decoder rejects ends with
`IllegalCommand` (R182). -/
def runPacket (p : Packet) (s : State) : Host.Outcome State Fault Refusal :=
  match decode p with
  | .ok i => exec i s
  | .error _ => .next (s.illegal p.header)

/-- R215: one packet, the given bytes of DMEM being written while it executes. -/
def runRace (p : Packet) (writes : List (Word × Byte)) (s : State) : Host.Outcome State Fault Refusal :=
  if writes.all (fun w => s.addressExists w.1) then settleRace s.dmem writes (runPacket p (s.raceView writes))
  else .fault .hostAddress

/-- One operation of the host. -/
def perform (op : HostOp) (s : State) : Host.Outcome State Fault Refusal :=
  match op with
  | .submit p => runPacket p s
  | .read reg => .next (s.observe (s.readPort reg))
  | .write a b => s.hostWrite a b
  | .readMem a => s.hostReadMem a
  | .reset => .next s.enterReset
  | .submitReset p => .next (s.abandonByReset p)
  | .submitRace p writes => runRace p writes s

end Sys2Proof.Machine
end

