-- ==== Sys2Proof/Machine/Step.lean ====
section
/-! DEFINITION. One step: the host's next operation (spec/10_state.md R21). -/

namespace Sys2Proof.Machine

/-- One step: the host's next operation, the index having gone up by 1 (R21). With no operation left nothing
changes: "The block's state changes only through packets and reset" (R37). -/
def step (s : State) : Host.Outcome State Fault Refusal :=
  match s.nextOp with
  | none => .next s
  | some op => perform op s.advance

/-- The state in which the host's next operation is to submit the packet whose bits are w (log entries 13, 16):
only the host's list of operations changes. -/
def State.withFetchWord (s : State) (nbits w : Nat) : State :=
  { s with
    host := s.host.take s.pos ++
      List.replicate (s.pos - s.host.length + 1) (.submit (Packet.ofTableWord nbits w)) ++ s.host.drop (s.pos + 1) }

end Sys2Proof.Machine
end

