-- ==== Sys2Proof/Machine/Assembler.lean ====
section
/-! DEFINITION. The assembler of CRCCORE-1 (spec/30_encoding.md R87, R88): from one line of text to the host
operation it stands for. -/

namespace Sys2Proof.Machine

/-! ## From an assembly line to a host operation -/

/-- R87: an operand as 64 bits, two's complement if negative. -/
def asmWord (v : Int) : Word := BitVec.ofInt 64 v

/-- R88: `ceil(NBITS/8)`. -/
def ceilBytes (nbits : Int) : Int := (nbits + 7) / 8

/-- R88: the expansion of a pseudo-instruction; every other line is its own expansion. -/
def expandAsm : AsmLine → AsmLine
  | .updbits sid addr nbits => .updb sid addr (ceilBytes nbits) nbits
  | .calcbits addr nbits => .calcb addr (ceilBytes nbits) nbits
  | .updall sid addr len => .updb sid addr len (-1)
  | line => line

/-- R87, column "packet": the instruction of a line that is no pseudo-instruction. -/
def asmInstr : AsmLine → Option Instr
  | .refl nbits value => some (.refl (BitVec.ofNat 7 nbits) (asmWord value))
  | .cfg width refin refout poly init xorout =>
    some (.cfg (BitVec.ofNat 7 width) (refin == 1) (refout == 1) (asmWord poly) (asmWord init) (asmWord xorout))
  | .tblrd index => some (.tblrd (BitVec.ofNat 8 index))
  | .snew sid => some (.snew (BitVec.ofNat 4 sid))
  | .upd sid addr len => some (.upd (BitVec.ofNat 4 sid) (asmWord addr) (asmWord len))
  | .updb sid addr len bitlen => some (.updb (BitVec.ofNat 4 sid) (asmWord addr) (asmWord len) (asmWord bitlen))
  | .fin sid => some (.fin (BitVec.ofNat 4 sid))
  | .res sid => some (.res (BitVec.ofNat 4 sid))
  | .calcBytes addr len => some (.calcBytes (asmWord addr) (asmWord len))
  | .calcb addr len bitlen => some (.calcb (asmWord addr) (asmWord len) (asmWord bitlen))
  | .updbits _ _ _ => none
  | .calcbits _ _ => none
  | .updall _ _ _ => none
  | .hostRead _ => none

/-- R87, R88: assemble a line: refuse a value that does not fit its field, expand, encode. A legal field value
that the block will reject (WIDTH = 0, S >= NSESS) is assembled. -/
def assemble (line : AsmLine) : Option HostOp :=
  if line.wellFormed then
    match line with
    | .hostRead reg => some (.read reg)
    | line => (asmInstr (expandAsm line)).map (fun i => .submit (encode i))
  else none

/-! ## From text to an assembly line -/

/-- Drop leading blanks. -/
def dropBlanks : List Char → List Char
  | [] => []
  | c :: rest => if c = ' ' then dropBlanks rest else c :: rest

/-- Drop blanks at both ends. -/
def trimBlanks (cs : List Char) : List Char := (dropBlanks (dropBlanks cs).reverse).reverse

/-- Cut at each comma. -/
def splitCommas : List Char → List (List Char)
  | [] => [[]]
  | c :: rest =>
    match splitCommas rest with
    | [] => [[c]]
    | piece :: pieces => if c = ',' then [] :: piece :: pieces else (c :: piece) :: pieces

/-- Cut at the first blank: the mnemonic and the rest of the line. -/
def splitMnemonic : List Char → List Char × List Char
  | [] => ([], [])
  | c :: rest => if c = ' ' then ([], rest) else ((c :: (splitMnemonic rest).1), (splitMnemonic rest).2)

/-- One digit in base 16. -/
def digitValue (c : Char) : Option Nat :=
  let n := c.toNat
  if 48 ≤ n && n ≤ 57 then some (n - 48)
  else if 97 ≤ n && n ≤ 102 then some (n - 87)
  else if 65 ≤ n && n ≤ 70 then some (n - 55)
  else none

/-- Digits in a base, after the value acc of the digits read before. -/
def parseDigits (base : Nat) : Nat → List Char → Option Nat
  | acc, [] => some acc
  | acc, c :: rest =>
    match digitValue c with
    | some d => if d < base then parseDigits base (acc * base + d) rest else none
    | none => none

/-- R87: "Numbers are decimal or `0x` hexadecimal." -/
def parseNat : List Char → Option Nat
  | [] => none
  | ['0', 'x'] => none
  | '0' :: 'x' :: rest => parseDigits 16 0 rest
  | cs => parseDigits 10 0 cs

/-- A number with an optional sign. -/
def parseInt : List Char → Option Int
  | '-' :: rest => (parseNat rest).map (fun n => -(n : Int))
  | cs => (parseNat cs).map Int.ofNat

/-- R87: "A session is written `s<S>`." -/
def parseSession : List Char → Option Nat
  | 's' :: rest => parseNat rest
  | _ => none

/-- The host-readable register named (R37). -/
def parseHostReg (cs : List Char) : Option HostReg :=
  if cs = "RESULT".toList then some .result
  else if cs = "STATUS".toList then some .status
  else if cs = "ERRHDR".toList then some .errhdr
  else none

/-- R87, R88: the line of a mnemonic with its operands "in the order below". -/
def parseCommand (mnemonic : List Char) (args : List (List Char)) : Option AsmLine :=
  match String.ofList mnemonic, args with
  | "refl", [n, v] => do return .refl (← parseNat n) (← parseInt v)
  | "cfg", [w, ri, ro, p, i, x] => do
    return .cfg (← parseNat w) (← parseNat ri) (← parseNat ro) (← parseInt p) (← parseInt i) (← parseInt x)
  | "tblrd", [i] => do return .tblrd (← parseNat i)
  | "snew", [s] => do return .snew (← parseSession s)
  | "upd", [s, a, l] => do return .upd (← parseSession s) (← parseInt a) (← parseInt l)
  | "updb", [s, a, l, b] => do return .updb (← parseSession s) (← parseInt a) (← parseInt l) (← parseInt b)
  | "fin", [s] => do return .fin (← parseSession s)
  | "res", [s] => do return .res (← parseSession s)
  | "calc", [a, l] => do return .calcBytes (← parseInt a) (← parseInt l)
  | "calcb", [a, l, b] => do return .calcb (← parseInt a) (← parseInt l) (← parseInt b)
  | "updbits", [s, a, n] => do return .updbits (← parseSession s) (← parseInt a) (← parseInt n)
  | "calcbits", [a, n] => do return .calcbits (← parseInt a) (← parseInt n)
  | "updall", [s, a, l] => do return .updall (← parseSession s) (← parseInt a) (← parseInt l)
  | _, _ => none

/-- R87: one line of text. `host: read <register>` is the host action the rule gives as its example; every other
`host:` line is outside the syntax the rule fixes (log entry 15). -/
def parseLine (line : List Char) : Option AsmLine :=
  let (mnemonic, rest) := splitMnemonic (trimBlanks line)
  if mnemonic = "host:".toList then
    let (action, reg) := splitMnemonic (dropBlanks rest)
    if action = "read".toList then (parseHostReg (trimBlanks reg)).map .hostRead else none
  else parseCommand mnemonic ((splitCommas rest).map trimBlanks)

/-- R87: from a line of text to the host operation it stands for; `none` where the assembler refuses it. -/
def assembleText (line : String) : Option HostOp := (parseLine line.toList).bind assemble

end Sys2Proof.Machine
end

