-- ==== Sys2Proof/Safety.lean ====
section
/-! DEFINITION. The invariant of the machine (spec/10_state.md R38) and the words the claims are stated in: the bits
of a message in consumption order (spec/20_memory.md R58, R59) and the bit-serial reading of the CRC
(spec/42_bit_serial.md R134, spec/43_table_update.md R143). No meaning of a command uses a definition of this file. -/

namespace Sys2Proof.Machine

/-! ## The invariant -/

/-- R38 item 1, and R29, R116: TBL is the table of ENG.RPOLY. -/
abbrev Engine.Inv (e : Engine) (p : Params) : Prop :=
  (1 ≤ e.w.toNat ∧ e.w.toNat ≤ 64 ∧ e.w.toNat ≤ p.regBits.toNat) ∧
  (e.rpoly.toNat < 2 ^ e.w.toNat ∧ e.rinit.toNat < 2 ^ e.w.toNat ∧ e.xorout.toNat < 2 ^ e.w.toNat) ∧
  (∀ i : Byte, (e.entry i).toNat < 2 ^ e.w.toNat) ∧
  e.tbl = buildTable e.rpoly

/-- R38, with the reserved bits of STATUS (R35), the scratch register between commands (R33), the legality of the
parameters (R6), the absence of sessions at NSESS and above (R31), and the canonical form of DMEM. -/
structure State.Inv (s : State) : Prop where
  /-- R6. -/
  params_legal : s.params.Legal
  /-- R38 item 1. -/
  engine : ∀ e ∈ s.eng, e.Inv s.params
  /-- R38 item 2; R31: only sessions below NSESS exist. -/
  session : ∀ sid : SessionIndex, ∀ r ∈ s.session sid,
    sid.toNat < s.params.nsess ∧ ∃ e ∈ s.eng, r.toNat < 2 ^ e.w.toNat
  /-- R38 item 3. -/
  status_engv : statusEngv s.status = s.engV
  /-- R38 item 4. -/
  status_last : (statusLast s.status).toNat ≤ 7
  /-- R38 item 4, R35: STATUS[16] and the reserved bits read 0. -/
  status_reserved : s.status &&& 0xFF01FFE0#32 = 0
  /-- R33. -/
  scratch : s.oneReg = none
  /-- The canonical form of DMEM. -/
  dmem_wf : Memory.wf s.dmem
  /-- R50: no address at or above MEM_SIZE exists. -/
  dmem_within : Memory.within s.dmem s.params.memSize

/-- R200: "A claim about a program that must not fail takes `STATUS.SEEN = 0` at the end of the program as a
premise". -/
def State.NothingFailed (s : State) : Prop := statusSeen s.status = 0

/-! ## The message bits -/

/-- R58, R134: the data bit d_j of a byte: bit j when ENG.RIN = 1, bit 7-j when ENG.RIN = 0. -/
def dataBit (rin : Bool) (b : Byte) (j : Nat) : Bool := if rin then b.getLsbD j else b.getLsbD (7 - j)

/-- R58: the eight data bits of a byte in consumption order. -/
def byteBits (rin : Bool) (b : Byte) : List Bool := (List.range 8).map (dataBit rin b)

/-- R54: the bytes of the buffer [ADDR, ADDR+LEN). -/
def State.bufferBytes (s : State) (addr len : Word) : List Byte :=
  (List.range len.toNat).map (fun j => s.dmem.read (addr.toNat + j))

/-- R140: the number of bits a bit length takes from a buffer of len bytes. -/
def usedBits (bl : Int) (len : Word) : Nat := if 0 ≤ bl then bl.toNat else 8 * len.toNat

/-- R143 item 4: "the first `bl` data bits of the buffer (all `8*L` of them when bl < 0) ... byte 0 first, and
within each byte the order set by `ENG.RIN`". -/
def State.messageBits (s : State) (rin : Bool) (addr len : Word) (bl : Int) : List Bool :=
  ((s.bufferBytes addr len).flatMap (byteBits rin)).take (usedBits bl len)

/-- R134: the fold of one data bit: `r_(j+1) = bitStep(r_j ^ d_j)`. -/
def serialStep (p r : Word) (d : Bool) : Word := bitStep p (r ^^^ (if d then 1 else 0))

/-- R143 item 4: a stream of data bits fed one bit per bit step. -/
def serialFold (p r : Word) (bits : List Bool) : Word := bits.foldl (serialStep p) r

/-- R160: the register as the variant presents it, written bit by bit: for ENG.ROUT = 0, bit j of the value is bit
W-1-j of the register. -/
def Presents (e : Engine) (r v : Word) : Prop :=
  ∀ j < 64, v.getLsbD j = if e.rout then r.getLsbD j else decide (j < e.w.toNat) && r.getLsbD (e.w.toNat - 1 - j)

/-- The session index a command names (R71), if it names one. -/
def namedSession : Instr → Option SessionIndex
  | .refl _ _ => none
  | .cfg _ _ _ _ _ _ => none
  | .tblrd _ => none
  | .snew sid => some sid
  | .upd sid _ _ => some sid
  | .updb sid _ _ _ => some sid
  | .fin sid => some sid
  | .res sid => some sid
  | .calcBytes _ _ => none
  | .calcb _ _ _ => none

/-- The command is CFG. -/
def isCfg : Instr → Bool
  | .cfg _ _ _ _ _ _ => true
  | .refl _ _ => false
  | .tblrd _ => false
  | .snew _ => false
  | .upd _ _ _ => false
  | .updb _ _ _ _ => false
  | .fin _ => false
  | .res _ => false
  | .calcBytes _ _ => false
  | .calcb _ _ _ => false

/-! ## Assembly lines -/

/-- R87: the value is not "an operand outside 64 bits"; a negative one is two's complement (DEDUCED, log entry 15). -/
abbrev OperandFits (v : Int) : Prop := -2 ^ 63 ≤ v ∧ v < 2 ^ 64

/-- R87: the value is not a "BITLEN outside -2^63..2^63-1". -/
abbrev BitlenFits (v : Int) : Prop := -2 ^ 63 ≤ v ∧ v ≤ 2 ^ 63 - 1

/-! ## Packets and host operations -/

/-- R79, the opcode map as the rule prints it: match, mask and the operand count k, row by row. -/
def manualRows : List (Header × Header × Nat) :=
  [ (0x00000001, 0xFFF80FFF, 1), (0x00000002, 0xFFE00FFF, 3), (0x00000003, 0xFFF00FFF, 0),
    (0x00000004, 0xFFFFF0FF, 0), (0x00000005, 0xFFFFF0FF, 2), (0x00000006, 0xFFFFF0FF, 3),
    (0x00000007, 0xFFFFF0FF, 0), (0x00000008, 0xFFFFF0FF, 0), (0x00000009, 0xFFFFFFFF, 2),
    (0x0000000A, 0xFFFFFFFF, 3) ]

/-- R83: a legal packet is "an exact match of one row of rule R79 with the right operand count". -/
def LegalPacket (p : Packet) : Prop :=
  ∃ row ∈ manualRows, p.header &&& row.2.1 = row.1 ∧ p.operands.length = row.2.2

/-- The DMEM addresses a host operation itself names (R51, R215); the buffer of a packet is not among them. -/
def hostAddresses : HostOp → List Word
  | .submit _ => []
  | .read _ => []
  | .write a _ => [a]
  | .readMem a => [a]
  | .reset => []
  | .submitReset _ => []
  | .submitRace _ writes => writes.map Prod.fst

/-- The host operation asserts reset (R210). -/
def isReset : HostOp → Bool
  | .submit _ => false
  | .read _ => false
  | .write _ _ => false
  | .readMem _ => false
  | .reset => true
  | .submitReset _ => true
  | .submitRace _ _ => false

/-- The packet a host operation has the block execute (R70, R215), if it does; a packet abandoned by reset (R210)
is not executed. -/
def executedPacket : HostOp → Option Packet
  | .submit p => some p
  | .read _ => none
  | .write _ _ => none
  | .readMem _ => none
  | .reset => none
  | .submitReset _ => none
  | .submitRace p _ => some p

end Sys2Proof.Machine
end

