-- ==== Sys2Proof/Certificates/Slice0/Obligations.lean ====
section
/-! DEFINITION. The statements for the provers. Each docstring names the rule of spec/ the statement formalises; a
rule the spec marks as derived is the spec's own inference, and its statement has basis "derived". -/

open Sys2Proof Sys2Proof.Machine

/-! ## Encoding -/

/-- R89, the spec's worked encodings (the rule is marked derived): each packet decodes to the command its
assembly line names. -/
def Obligations.WorkedEncodingsDecode : Prop :=
  decode ⟨0x001A0002, [0x04C11DB7, 0xFFFFFFFF, 0xFFFFFFFF]⟩ =
    .ok (.cfg 32 true true 0x04C11DB7 0xFFFFFFFF 0xFFFFFFFF) ∧
  decode ⟨0x00185002, [0x05, 0x1F, 0x1F]⟩ = .ok (.cfg 5 true true 0x05 0x1F 0x1F) ∧
  decode ⟨0x00010002, [0x1021, 0x0, 0x0]⟩ = .ok (.cfg 16 false false 0x1021 0 0) ∧
  decode ⟨0x00008002, [0x07, 0x0, 0x0]⟩ = .ok (.cfg 8 false false 0x07 0 0) ∧
  decode ⟨0x00020001, [0x04C11DB7]⟩ = .ok (.refl 32 0x04C11DB7) ∧
  decode ⟨0x000FF003, []⟩ = .ok (.tblrd 255) ∧
  decode ⟨0x00000104, []⟩ = .ok (.snew 1) ∧
  decode ⟨0x00000106, [0x100, 0x5, 0x22]⟩ = .ok (.updb 1 0x100 5 34) ∧
  decode ⟨0x00000207, []⟩ = .ok (.fin 2) ∧
  decode ⟨0x0000000A, [0x100, 0x9, 0xFFFFFFFFFFFFFFFB]⟩ = .ok (.calcb 0x100 9 (BitVec.ofInt 64 (-5)))

/-- R72 to R77, R87: decoding the packet of any command, with every operand at every value, gives the command
back. -/
def Obligations.DecodeOfEncode : Prop := ∀ i : Instr, decode (encode i) = .ok i

/-- R71, R81: no bit of an accepted packet is ignored: the command's packet is the one submitted. -/
def Obligations.EncodeOfDecode : Prop := ∀ (p : Packet) (i : Instr), decode p = .ok i → encode i = p

/-- R82, R83: the decoder accepts exactly the packets that match one row of R79 with the right operand count, and it
names the opcodes 0x00 and 0x0B to 0xFF unassigned, whatever the other bits and operands. -/
def Obligations.DecoderAcceptsExactlyTheOpcodeMap : Prop :=
  (∀ p : Packet, (∃ i, decode p = .ok i) ↔ LegalPacket p) ∧
  (∀ p : Packet, decode p = .error .unassignedOpcode ↔
    (p.header.toNat % 256 = 0 ∨ 0x0B ≤ p.header.toNat % 256))

/-- R85: the bytes of a packet: the header as 4 bytes in little-endian order, then each operand as 8, OP0 first; and
a packet of the command port (R70) is read back from them. -/
def Obligations.PacketBytesAreLittleEndian : Prop :=
  ∀ p : Packet,
    p.toBytes.length = 4 + 8 * p.operands.length ∧
    (∀ j < 4, p.toBytes[j]? = some (p.header.extractLsb' (8 * j) 8)) ∧
    (∀ i v, p.operands[i]? = some v → ∀ j < 8, p.toBytes[4 + 8 * i + j]? = some (v.extractLsb' (8 * j) 8)) ∧
    (p.operands.length ≤ 3 → Packet.ofBytes p.toBytes = some p)

/-! ## The step -/

/-- R21, R78: a step whose operation is a packet that decodes runs the command, the host's index having gone up
by 1. -/
def Obligations.StepRunsTheDecodedPacket : Prop :=
  ∀ (s : State) (p : Packet) (i : Instr), s.nextOp = some (.submit p) → decode p = .ok i →
    step s = exec i { s with pos := s.pos + 1 }

/-- R182, R185, R191: a packet that matches no row, or has the wrong operand count, ends with code 1 and changes
only STATUS and ERRHDR. -/
def Obligations.StepRecordsAnIllegalPacket : Prop :=
  ∀ (s : State) (p : Packet), s.nextOp = some (.submit p) → ¬ LegalPacket p →
    step s = .next
      { s with
        pos := s.pos + 1
        status := recordStatus s.status .illegalCommand s.eng.isSome
        errhdr := p.header }

/-- R37, R221: with no operation left a step changes nothing (the model's reading, log entry 1). -/
def Obligations.IdleStepChangesNothing : Prop := ∀ s : State, s.nextOp = none → step s = .next s

/-- Log entries 13 and 16: the step after `withFetchWord` runs the packet whose bits are given, and the decoder reads
the same packet. -/
def Obligations.FetchWordIsTheNextPacket : Prop :=
  ∀ (s : State) (nbits w : Nat),
    step (s.withFetchWord nbits w) =
      runPacket (Packet.ofTableWord nbits w) { s.withFetchWord nbits w with pos := s.pos + 1 } ∧
    decodeTableWord nbits w = (decode (Packet.ofTableWord nbits w)).toOption

/-! ## Reset -/

/-- R211: the reset state, for every piece of state of the block; the ROM has its constant content. -/
def Obligations.ResetStateIsTheTable : Prop :=
  State.reset.eng = none ∧ (∀ sid, State.reset.session sid = none) ∧ State.reset.oneReg = none ∧
  State.reset.result = 0 ∧ State.reset.status = 0 ∧ State.reset.errhdr = 0 ∧
  (∀ b : Byte, (refl8Rom b).setWidth 64 = reflect (b.setWidth 64) 8) ∧
  (∀ s : State, s.enterReset.dmem = s.dmem)

/-- R210: reset between packets, and reset during a packet, both leave the block in the reset state, the packet
having had no effect. R211: DMEM is as before. That the parameters, the host's list, what the host has seen and the
draw counter are as before, and that the index goes up by 1, is the model's choice (log entries 1 and 12). -/
def Obligations.ResetInputEntersTheResetState : Prop :=
  ∀ (s : State) (op : HostOp), s.nextOp = some op → isReset op = true →
    step s = .next
      { State.reset with
        dmem := s.dmem, params := s.params, host := s.host, pos := s.pos + 1, seen := s.seen, draws := s.draws }

/-! ## The invariant and completion -/

/-- R38 (marked derived in the spec): the invariant holds at reset. -/
def Obligations.ResetMeetsTheInvariant : Prop := State.reset.Inv

/-- R38 (marked derived in the spec): every step keeps the invariant, whatever the host does. -/
def Obligations.StepKeepsTheInvariant : Prop :=
  ∀ s t : State, s.Inv → step s = .next t → t.Inv

/-- R200, R220: every command completes from every state that meets the invariant: no model fault is met. -/
def Obligations.EveryCommandCompletes : Prop :=
  ∀ (i : Instr) (s : State), s.Inv → ∃ t, exec i s = .next t

/-- R200, R220: a step completes from every state that meets the invariant, if the DMEM addresses that the host's
own operation names exist. -/
def Obligations.EveryStepCompletes : Prop :=
  ∀ s : State, s.Inv →
    (∀ op, s.nextOp = some op → ∀ a ∈ hostAddresses op, a.toNat < s.params.memSize) → ∃ t, step s = .next t

/-! ## Errors and their recording -/

/-- R191: at the completion of every packet, with its code c: LAST, the SEEN bit of c and ERRHDR for a non-zero c,
ENGV after the packet's own effects; every other bit of STATUS is as before. -/
def Obligations.EveryPacketRecordsOneCode : Prop :=
  ∀ (p : Packet) (s t : State), runPacket p s = .next t →
    ∃ c : ErrorCode,
      statusLast t.status = c.code ∧
      statusEngv t.status = t.eng.isSome ∧
      t.errhdr = (if c.code = 0 then s.errhdr else p.header) ∧
      (c.code ≠ 0 → t.status.getLsbD (16 + c.code.toNat) = true) ∧
      (∀ k, 5 ≤ k → (c.code ≠ 0 → k ≠ 16 + c.code.toNat) → t.status.getLsbD k = s.status.getLsbD k)

/-- R185: a packet that ends with a non-zero code changes nothing except STATUS and ERRHDR. -/
def Obligations.FailedPacketChangesOnlyTheRecord : Prop :=
  ∀ (p : Packet) (s t : State), runPacket p s = .next t → statusLast t.status ≠ 0 →
    t = { s with status := t.status, errhdr := p.header }

/-- R35: "`SEEN` bits are only ever set, never cleared, until reset". -/
def Obligations.SeenBitsAreSticky : Prop :=
  ∀ (s t : State) (k : Nat), step s = .next t → (∀ op, s.nextOp = some op → isReset op = false) →
    (statusSeen s.status).getLsbD k = true → (statusSeen t.status).getLsbD k = true

/-- R200: "A claim about a program that must not fail takes `STATUS.SEEN = 0` at the end of the program as a premise":
if SEEN is 0 after a step that asserts no reset, it was 0 before, and the packet executed, if any, succeeded. -/
def Obligations.SeenZeroMeansNothingFailed : Prop :=
  ∀ s t : State, step s = .next t → (∀ op, s.nextOp = some op → isReset op = false) → t.NothingFailed →
    s.NothingFailed ∧
      ∀ op p, s.nextOp = some op → executedPacket op = some p → statusLast t.status = 0

/-- R192: STATUS and ERRHDR do not influence what a packet does: with other values in them it has the same code and
the same effects. -/
def Obligations.RecordDoesNotInfluencePackets : Prop :=
  ∀ (p : Packet) (s t : State) (st : BitVec 32) (h : Header), runPacket p s = .next t →
    ∃ t', runPacket p { s with status := st, errhdr := h } = .next t' ∧
      t' = { t with status := t'.status, errhdr := t'.errhdr } ∧
      statusLast t'.status = statusLast t.status

/-- R183: every command but REFL and CFG ends with `NoEngine` while ENG.V = 0, whatever else is wrong with its
operands; REFL and CFG never raise it. -/
def Obligations.NoEngineIsReported : Prop :=
  (∀ (i : Instr) (s : State), s.eng = none → isCfg i = false → (∀ n v, i ≠ .refl n v) →
    exec i s = .next { s with status := recordStatus s.status .noEngine false, errhdr := i.header }) ∧
  (∀ (i : Instr) (s t : State), (isCfg i = true ∨ ∃ n v, i = .refl n v) → exec i s = .next t →
    statusLast t.status ≠ 2)

/-- R184: `InvalidSession`: SNEW when `S >= NSESS`, and only then; UPD, UPDB, FIN and RES when `S >= NSESS` or the
session is not open, whatever else is wrong with their operands. -/
def Obligations.InvalidSessionIsReported : Prop :=
  ∀ (s : State) (e : Engine) (sid : SessionIndex) (addr len bitlen : Word), s.eng = some e →
    (s.params.nsess ≤ sid.toNat →
      exec (.snew sid) s = .next
        { s with status := recordStatus s.status .invalidSession true, errhdr := (Instr.snew sid).header }) ∧
    (s.params.nsess ≤ sid.toNat ∨ s.session sid = none →
      ∀ i ∈ [Instr.upd sid addr len, .updb sid addr len bitlen, .fin sid, .res sid],
        exec i s = .next
          { s with status := recordStatus s.status .invalidSession true, errhdr := i.header }) ∧
    (sid.toNat < s.params.nsess → ∀ t, exec (.snew sid) s = .next t → statusLast t.status ≠ 3)

/-- R187: `BitLengthOutOfRange` in UPDB and CALCB, exactly and before the range check of the buffer (R190): the
packet is rejected with no effect and the block goes on. -/
def Obligations.BitLengthOutOfRangeIsReported : Prop :=
  ∀ (s : State) (e : Engine) (sid : SessionIndex) (r addr len bitlen : Word), s.eng = some e →
    8 * (len.toNat : Int) < sint64 bitlen →
    (sid.toNat < s.params.nsess → s.session sid = some r →
      exec (.updb sid addr len bitlen) s = .next
        { s with
          status := recordStatus s.status .bitLengthOutOfRange true
          errhdr := (Instr.updb sid addr len bitlen).header }) ∧
    exec (.calcb addr len bitlen) s = .next
      { s with
        status := recordStatus s.status .bitLengthOutOfRange true
        errhdr := (Instr.calcb addr len bitlen).header }

/-- R189: `AccessFault` in UPD, UPDB, CALC and CALCB when `ADDR + LEN > MEM_SIZE` in exact arithmetic. -/
def Obligations.AccessFaultIsReported : Prop :=
  ∀ (s : State) (e : Engine) (sid : SessionIndex) (r addr len bitlen : Word), s.eng = some e →
    s.params.memSize < addr.toNat + len.toNat →
    (sid.toNat < s.params.nsess → s.session sid = some r →
      exec (.upd sid addr len) s = .next
        { s with
          status := recordStatus s.status .accessFault true, errhdr := (Instr.upd sid addr len).header }) ∧
    exec (.calcBytes addr len) s = .next
      { s with
        status := recordStatus s.status .accessFault true, errhdr := (Instr.calcBytes addr len).header } ∧
    (sint64 bitlen ≤ 8 * (len.toNat : Int) →
      (sid.toNat < s.params.nsess → s.session sid = some r →
        exec (.updb sid addr len bitlen) s = .next
          { s with
            status := recordStatus s.status .accessFault true
            errhdr := (Instr.updb sid addr len bitlen).header }) ∧
      exec (.calcb addr len bitlen) s = .next
        { s with
          status := recordStatus s.status .accessFault true
          errhdr := (Instr.calcb addr len bitlen).header })

/-! ## Reflection -/

/-- R100, R103: REFL with NBITS in 1..64, with or without an engine: bit i of RESULT is bit NBITS-1-i of VALUE
for i below NBITS, and 0 above; nothing else changes but STATUS. -/
def Obligations.ReflReversesTheLowBits : Prop :=
  ∀ (s : State) (nbits : BitVec 7) (value : Word), 1 ≤ nbits.toNat → nbits.toNat ≤ 64 →
    ∃ r : Word,
      exec (.refl nbits value) s = .next
        { s with result := r, status := recordStatus s.status .ok s.eng.isSome } ∧
      ∀ i < 64, r.getLsbD i = (decide (i < nbits.toNat) && value.getLsbD (nbits.toNat - 1 - i))

/-- R188: REFL raises `OperandOutOfRange` when NBITS = 0 or NBITS > 64. -/
def Obligations.ReflOperandOutOfRange : Prop :=
  ∀ (s : State) (nbits : BitVec 7) (value : Word), nbits.toNat = 0 ∨ 64 < nbits.toNat →
    exec (.refl nbits value) s = .next
      { s with
        status := recordStatus s.status .operandOutOfRange s.eng.isSome
        errhdr := (Instr.refl nbits value).header }

/-- R101 (marked derived in the spec), items 1 to 5. -/
def Obligations.ReflectionProperties : Prop :=
  ∀ (a b : Word) (n : Nat), 1 ≤ n → n ≤ 64 →
    (reflect a n).toNat < 2 ^ n ∧
    reflect (reflect a n) n = a &&& mask n ∧
    reflect a n = reflect (a &&& mask n) n ∧
    reflect (a ^^^ b) n = reflect a n ^^^ reflect b n ∧
    reflect a 1 = a &&& 1

/-! ## Construction -/

/-- R110, R116, R117: a CFG whose configuration passes the checks leaves the engine of R110 with the table of R116,
every session closed and RESULT unchanged. -/
def Obligations.CfgBuildsTheEngine : Prop :=
  ∀ (s : State) (width : BitVec 7) (refin refout : Bool) (poly init xorout : Word),
    1 ≤ width.toNat → width.toNat ≤ 64 → width.toNat ≤ s.params.regBits.toNat →
    poly.toNat < 2 ^ width.toNat → init.toNat < 2 ^ width.toNat → xorout.toNat < 2 ^ width.toNat →
    ∃ e : Engine,
      exec (.cfg width refin refout poly init xorout) s = .next
        { s with
          eng := some e
          sess := Vector.replicate 16 none
          status := recordStatus s.status .ok true } ∧
      e.w = width ∧ e.rpoly = reflect poly width.toNat ∧ e.rinit = reflect init width.toNat ∧
      e.xorout = xorout ∧ e.rin = refin ∧ e.rout = refout ∧
      ∀ i : Byte, e.entry i = bitSteps e.rpoly 8 (i.setWidth 64)

/-- R113, R114, R118, R186: a CFG whose WIDTH is 0, above 64 or above REG_BITS, or with a value above mask(WIDTH),
ends with `InvalidParameter` and changes no engine register, no table entry and no session. -/
def Obligations.CfgRejectsBadParameters : Prop :=
  ∀ (s : State) (width : BitVec 7) (refin refout : Bool) (poly init xorout : Word),
    (width.toNat = 0 ∨ 64 < width.toNat ∨ s.params.regBits.toNat < width.toNat ∨
      2 ^ width.toNat - 1 < poly.toNat ∨ 2 ^ width.toNat - 1 < init.toNat ∨ 2 ^ width.toNat - 1 < xorout.toNat) →
    exec (.cfg width refin refout poly init xorout) s = .next
      { s with
        status := recordStatus s.status .invalidParameter s.eng.isSome
        errhdr := (Instr.cfg width refin refout poly init xorout).header }

/-- R119: two successful CFG commands with the same operands leave the same engine registers and table, whatever the
states before; a CFG succeeds exactly when the checks of R113 and R114 pass, and no other property of POLY counts. -/
def Obligations.ConstructionIsDeterministic : Prop :=
  ∀ (width : BitVec 7) (refin refout : Bool) (poly init xorout : Word),
    (∀ s s' t t' : State,
      exec (.cfg width refin refout poly init xorout) s = .next t → statusLast t.status = 0 →
      exec (.cfg width refin refout poly init xorout) s' = .next t' → statusLast t'.status = 0 →
      t.eng = t'.eng) ∧
    (∀ s t : State, exec (.cfg width refin refout poly init xorout) s = .next t →
      (statusLast t.status = 0 ↔
        1 ≤ width.toNat ∧ width.toNat ≤ 64 ∧ width.toNat ≤ s.params.regBits.toNat ∧
        poly.toNat < 2 ^ width.toNat ∧ init.toNat < 2 ^ width.toNat ∧ xorout.toNat < 2 ^ width.toNat))

/-- R39: only a successful CFG, or reset, changes the engine registers. -/
def Obligations.EngineChangesOnlyByCfg : Prop :=
  ∀ s t : State, step s = .next t → t.eng ≠ s.eng →
    ∃ op, s.nextOp = some op ∧
      (isReset op = true ∨
        ∃ p i, executedPacket op = some p ∧ decode p = .ok i ∧ isCfg i = true ∧ statusLast t.status = 0)

/-- R116, R120: TBLRD answers 8 bit steps from the index. -/
def Obligations.TblrdReadsTheTable : Prop :=
  ∀ (s : State) (e : Engine) (index : BitVec 8), s.Inv → s.eng = some e →
    exec (.tblrd index) s = .next
      { s with
        result := bitSteps e.rpoly 8 (index.setWidth 64)
        status := recordStatus s.status .ok true }

/-- R121 (marked derived in the spec), items 1 to 4. -/
def Obligations.TableProperties : Prop :=
  ∀ (p : Word) (w : Nat) (a b : Byte), 1 ≤ w → w ≤ 64 → p.toNat < 2 ^ w →
    tableEntry p 0 = 0 ∧ (tableEntry p a).toNat < 2 ^ w ∧
    tableEntry p (a ^^^ b) = tableEntry p a ^^^ tableEntry p b ∧ tableEntry p 0x80 = p

/-! ## The tail unit and the bulk unit -/

/-- R134 (marked derived in the spec): folding the k masked bits in at once and stepping k times equals folding them
one bit per step, in consumption order. -/
def Obligations.TailUnitIsBitSerial : Prop :=
  ∀ (e : Engine) (r : Word) (b : Byte) (k : Nat), 1 ≤ k → k ≤ 8 →
    bbbUpdate e r b k = .ok (serialFold e.rpoly r ((byteBits e.rin b).take k))

/-- R133, R200: a tail-unit bit count outside 1..8 is a model fault, and never a value. -/
def Obligations.TailUnitFaultsOutsideItsRange : Prop :=
  ∀ (e : Engine) (r : Word) (b : Byte) (k : Nat), k = 0 ∨ 8 < k →
    bbbUpdate e r b k = .error (.model .tailBitCount)

/-- R134 item 1, R60 (marked derived in the spec): a byte split after k bits, continued as R60 lays it out, gives the
register of the whole byte. -/
def Obligations.SplitByteContinues : Prop :=
  ∀ (e : Engine) (r : Word) (b : Byte) (k : Nat), 1 ≤ k → k ≤ 7 →
    ∃ r₁ r₂, bbbUpdate e r b k = .ok r₁ ∧
      bbbUpdate e r₁ (if e.rin then b >>> k else b <<< k) (8 - k) = .ok r₂ ∧ bbbUpdate e r b 8 = .ok r₂

/-- R134 item 2, R143 item 3 (marked derived in the spec): the table fold of a byte is the tail unit with k = 8. -/
def Obligations.TableFoldAgreesWithTailUnit : Prop :=
  ∀ (e : Engine) (r : Word) (b : Byte), e.tbl = buildTable e.rpoly → bbbUpdate e r b 8 = .ok (foldByte e r b)

/-- R59, R135 (marked derived in the spec): the bits of a partial byte past the first k do not matter: b[7:k] for
ENG.RIN = 1, b[7-k:0] for ENG.RIN = 0. -/
def Obligations.PartialByteDontCareBits : Prop :=
  ∀ (e : Engine) (r : Word) (b b' : Byte) (k : Nat),
    (e.rin = true → ∀ j < k, b.getLsbD j = b'.getLsbD j) →
    (e.rin = false → ∀ j, 8 - k ≤ j → j < 8 → b.getLsbD j = b'.getLsbD j) →
    bbbUpdate e r b k = bbbUpdate e r b' k

/-! ## Sessions -/

/-- R150: SNEW opens session S at ENG.RINIT, also when it is open already; nothing else changes but STATUS. -/
def Obligations.SnewOpensTheSession : Prop :=
  ∀ (s : State) (e : Engine) (sid : SessionIndex), s.eng = some e → sid.toNat < s.params.nsess →
    exec (.snew sid) s = .next
      { s with
        sess := s.sess.set sid.toNat (some e.rinit) sid.isLt
        status := recordStatus s.status .ok true }

/-- R151, R143 item 4 (marked derived in the spec): UPD folds every bit of the buffer into the session register, one
bit per bit step in consumption order; nothing else changes but STATUS. -/
def Obligations.UpdIsBitSerial : Prop :=
  ∀ (s : State) (e : Engine) (sid : SessionIndex) (r addr len : Word), s.Inv → s.eng = some e →
    s.session sid = some r → addr.toNat + len.toNat ≤ s.params.memSize →
    exec (.upd sid addr len) s = .next
      { s with
        sess := s.sess.set sid.toNat
          (some (serialFold e.rpoly r (s.messageBits e.rin addr len wholeBuffer))) sid.isLt
        status := recordStatus s.status .ok true }

/-- R152, R143 item 4 (marked derived in the spec): UPDB folds the first BITLEN bits of the buffer, all of them for a
negative BITLEN, into the session register; nothing else changes but STATUS. -/
def Obligations.UpdbIsBitSerial : Prop :=
  ∀ (s : State) (e : Engine) (sid : SessionIndex) (r addr len bitlen : Word), s.Inv → s.eng = some e →
    s.session sid = some r → sint64 bitlen ≤ 8 * (len.toNat : Int) → addr.toNat + len.toNat ≤ s.params.memSize →
    exec (.updb sid addr len bitlen) s = .next
      { s with
        sess := s.sess.set sid.toNat
          (some (serialFold e.rpoly r (s.messageBits e.rin addr len (sint64 bitlen)))) sid.isLt
        status := recordStatus s.status .ok true }

/-- R140, R152: a negative BITLEN, and BITLEN = 8 * LEN, have the effect of UPD. -/
def Obligations.UpdbWholeBufferIsUpd : Prop :=
  ∀ (s : State) (e : Engine) (sid : SessionIndex) (r addr len bitlen : Word), s.Inv → s.eng = some e →
    s.session sid = some r → addr.toNat + len.toNat ≤ s.params.memSize →
    (sint64 bitlen < 0 ∨ sint64 bitlen = 8 * (len.toNat : Int)) →
    exec (.updb sid addr len bitlen) s = exec (.upd sid addr len) s

/-- R160, R154: RES answers the register as the variant presents it, without xorout; nothing else changes but
STATUS. -/
def Obligations.ResAnswersTheResidue : Prop :=
  ∀ (s : State) (e : Engine) (sid : SessionIndex) (r : Word), s.Inv → s.eng = some e → s.session sid = some r →
    ∃ v, Presents e r v ∧
      exec (.res sid) s = .next { s with result := v, status := recordStatus s.status .ok true }

/-- R161, R153: FIN answers the residue combined with ENG.XOROUT; nothing else changes but STATUS. The last clause,
that both are below 2^W, is R161's last sentence, which the spec marks as derived. -/
def Obligations.FinAnswersTheFinalCrc : Prop :=
  ∀ (s : State) (e : Engine) (sid : SessionIndex) (r : Word), s.Inv → s.eng = some e → s.session sid = some r →
    ∃ v, Presents e r v ∧
      exec (.fin sid) s = .next
        { s with result := v ^^^ e.xorout, status := recordStatus s.status .ok true } ∧
      v.toNat < 2 ^ e.w.toNat ∧ (v ^^^ e.xorout).toNat < 2 ^ e.w.toNat

/-- R144, R155 (marked derived in the spec): two UPDB commands leave the register of the concatenated bit stream,
wherever the first one ends, and also when the host writes DMEM in between. -/
def Obligations.ChunksConcatenate : Prop :=
  ∀ (s t u : State) (e : Engine) (sid : SessionIndex) (r a₁ l₁ b₁ a₂ l₂ b₂ : Word) (m : Memory),
    s.Inv → s.eng = some e → s.session sid = some r →
    exec (.updb sid a₁ l₁ b₁) s = .next t → statusLast t.status = 0 →
    exec (.updb sid a₂ l₂ b₂) { t with dmem := m } = .next u → statusLast u.status = 0 →
    u.session sid = some (serialFold e.rpoly r
      (s.messageBits e.rin a₁ l₁ (sint64 b₁) ++ { t with dmem := m }.messageBits e.rin a₂ l₂ (sint64 b₂)))

/-- R155 (marked derived in the spec), the source's property: feeding a buffer in two pieces leaves the session
register that feeding it whole leaves. -/
def Obligations.TwoPiecesEqualOne : Prop :=
  ∀ (s : State) (e : Engine) (sid : SessionIndex) (r a l₁ l₂ : Word), s.Inv → s.eng = some e →
    s.session sid = some r → a.toNat + l₁.toNat + l₂.toNat ≤ s.params.memSize →
    a.toNat + l₁.toNat < 2 ^ 64 → l₁.toNat + l₂.toNat < 2 ^ 64 →
    ∃ t u w, exec (.upd sid a l₁) s = .next t ∧ exec (.upd sid (a + l₁) l₂) t = .next u ∧
      exec (.upd sid a (l₁ + l₂)) s = .next w ∧ u.session sid = w.session sid

/-- R65, R157 (marked derived in the spec): a command changes no session but the one it names; a CFG closes every
session or changes none. -/
def Obligations.OtherSessionsAreUntouched : Prop :=
  ∀ (i : Instr) (s t : State) (sid : SessionIndex), exec i s = .next t → namedSession i ≠ some sid →
    t.session sid = s.session sid ∨ (isCfg i = true ∧ t.session sid = none)

/-! ## One-shot commands -/

/-- R170 (with R143 item 4, marked derived in the spec): CALC answers the final CRC of the buffer's bits folded from
ENG.RINIT; no session changes. -/
def Obligations.CalcIsBitSerial : Prop :=
  ∀ (s : State) (e : Engine) (addr len : Word), s.Inv → s.eng = some e →
    addr.toNat + len.toNat ≤ s.params.memSize →
    ∃ v, Presents e (serialFold e.rpoly e.rinit (s.messageBits e.rin addr len wholeBuffer)) v ∧
      exec (.calcBytes addr len) s = .next
        { s with result := v ^^^ e.xorout, status := recordStatus s.status .ok true }

/-- R171 (with R143 item 4, marked derived in the spec): CALCB answers the final CRC of the first BITLEN bits of the
buffer folded from ENG.RINIT; no session changes. -/
def Obligations.CalcbIsBitSerial : Prop :=
  ∀ (s : State) (e : Engine) (addr len bitlen : Word), s.Inv → s.eng = some e →
    sint64 bitlen ≤ 8 * (len.toNat : Int) → addr.toNat + len.toNat ≤ s.params.memSize →
    ∃ v, Presents e (serialFold e.rpoly e.rinit (s.messageBits e.rin addr len (sint64 bitlen))) v ∧
      exec (.calcb addr len bitlen) s = .next
        { s with result := v ^^^ e.xorout, status := recordStatus s.status .ok true }

/-- R172 item 1 (marked derived in the spec): CALCB gives the RESULT of SNEW, UPDB and FIN on any session. -/
def Obligations.OneShotEqualsSession : Prop :=
  ∀ (s : State) (e : Engine) (sid : SessionIndex) (addr len bitlen : Word), s.Inv → s.eng = some e →
    sid.toNat < s.params.nsess → sint64 bitlen ≤ 8 * (len.toNat : Int) →
    addr.toNat + len.toNat ≤ s.params.memSize →
    ∃ t₁ t₂ t₃ t,
      exec (.snew sid) s = .next t₁ ∧ exec (.updb sid addr len bitlen) t₁ = .next t₂ ∧
      exec (.fin sid) t₂ = .next t₃ ∧ exec (.calcb addr len bitlen) s = .next t ∧
      t₃.result = t.result ∧ statusLast t₃.status = 0 ∧ statusLast t.status = 0

/-- R172 item 2 (marked derived in the spec): `calc A, L` = `calcb A, L, bl` for every negative bl and for
bl = 8 * L. -/
def Obligations.CalcEqualsCalcbWholeBuffer : Prop :=
  ∀ (s : State) (e : Engine) (addr len bitlen : Word), s.Inv → s.eng = some e →
    addr.toNat + len.toNat ≤ s.params.memSize →
    (sint64 bitlen < 0 ∨ sint64 bitlen = 8 * (len.toNat : Int)) →
    exec (.calcb addr len bitlen) s = exec (.calcBytes addr len) s

/-! ## What does not matter -/

/-- R51, R40: no command writes DMEM, the parameters or the host's side; every byte of DMEM reads as before. -/
def Obligations.CommandsNeverWriteMemory : Prop :=
  ∀ (i : Instr) (s t : State), exec i s = .next t →
    (∀ a, t.dmem.read a = s.dmem.read a) ∧ t.dmem = s.dmem ∧ t.params = s.params ∧ t.host = s.host ∧
    t.pos = s.pos ∧ t.seen = s.seen ∧ t.draws = s.draws

/-- R59, R141 (spec/93_implementation_defined.md 6 and 7): UPDB and CALCB depend on DMEM only through the message
bits. -/
def Obligations.UnusedBitsDoNotMatter : Prop :=
  ∀ (s : State) (e : Engine) (m : Memory) (sid : SessionIndex) (addr len bitlen : Word), s.Inv → s.eng = some e →
    { s with dmem := m }.messageBits e.rin addr len (sint64 bitlen) =
      s.messageBits e.rin addr len (sint64 bitlen) →
    (∀ t, exec (.updb sid addr len bitlen) s = .next t →
      exec (.updb sid addr len bitlen) { s with dmem := m } = .next { t with dmem := m }) ∧
    (∀ t, exec (.calcb addr len bitlen) s = .next t →
      exec (.calcb addr len bitlen) { s with dmem := m } = .next { t with dmem := m })

/-- R7: REG_BITS affects only the width check at construction: no other command depends on it, and a CFG accepted
under two values of it builds the same engine. -/
def Obligations.RegBitsMattersOnlyToTheWidthCheck : Prop :=
  ∀ (i : Instr) (s t : State) (rb : RegBits), exec i s = .next t →
    (isCfg i = false →
      exec i { s with params := { s.params with regBits := rb } } =
        .next { t with params := { s.params with regBits := rb } }) ∧
    (isCfg i = true → statusLast t.status = 0 →
      ∀ t', exec i { s with params := { s.params with regBits := rb } } = .next t' → statusLast t'.status = 0 →
        t' = { t with params := { s.params with regBits := rb } })

/-! ## The host's operations -/

/-- R37: a read of the read port has no side effect on the block, and returns the register. -/
def Obligations.HostReadHasNoSideEffect : Prop :=
  ∀ (s : State) (reg : HostReg), s.nextOp = some (.read reg) →
    ∃ o, step s = .next { s with pos := s.pos + 1, seen := s.seen ++ [o] } ∧
      (reg = .result → o = .result s.result) ∧ (reg = .status → o = .status s.status) ∧
      (reg = .errhdr → o = .errhdr s.errhdr)

/-- R51, R62: a host write to an address that exists is seen by every later read of that address and of no other;
the block's registers do not change. -/
def Obligations.HostWriteIsSeen : Prop :=
  ∀ (s : State) (a : Word) (b : Byte), s.Inv → s.nextOp = some (.write a b) → a.toNat < s.params.memSize →
    ∃ m : Memory, step s = .next { s with pos := s.pos + 1, dmem := m } ∧
      ∀ x, m.read x = if x = a.toNat then b else s.dmem.read x

/-- R215: a packet whose buffer is written while it executes behaves as on some DMEM that agrees with the one before
at every address not written. Nothing is said of the bytes read at the written addresses: the statement holds whatever
they are. That DMEM holds the host's writes afterwards, and that the draw counter goes up by their number, is the
model's choice (log entry 11). -/
def Obligations.RacedPacketRunsOnSomeMemory : Prop :=
  ∀ (s t : State) (p : Packet) (writes : List (Word × Byte)), s.Inv →
    s.nextOp = some (.submitRace p writes) → step s = .next t →
    ∃ (m : Memory) (t' : State),
      (∀ a, (∀ w ∈ writes, w.1.toNat ≠ a) → m.read a = s.dmem.read a) ∧
      runPacket p { s with pos := s.pos + 1, dmem := m, draws := s.draws + writes.length } = .next t' ∧
      t = { t' with dmem := s.dmem.writes writes }

/-! ## The assembler -/

/-- R88: the pseudo-instructions have the packets of their expansions; q is `ceil(NBITS/8)`. A negative NBITS is
refused. -/
def Obligations.PseudoInstructionsExpand : Prop :=
  (∀ (sid : Nat) (addr nbits q : Int), 0 ≤ nbits → nbits ≤ 8 * q → 8 * q < nbits + 8 →
    assemble (.updbits sid addr nbits) = assemble (.updb sid addr q nbits) ∧
    assemble (.calcbits addr nbits) = assemble (.calcb addr q nbits)) ∧
  (∀ (sid : Nat) (addr nbits : Int), nbits < 0 →
    assemble (.updbits sid addr nbits) = none ∧ assemble (.calcbits addr nbits) = none) ∧
  (∀ (sid : Nat) (addr len : Int), assemble (.updall sid addr len) = assemble (.updb sid addr len (-1)))

/-- R87, for each of the ten commands: a line whose values fit their fields is assembled to the packet of the rule's
column "packet", and any other line is refused: WIDTH or NBITS above 127, REFIN or REFOUT above 1, INDEX above 255, S
above 15, an operand outside 64 bits, BITLEN outside -2^63..2^63-1. That an operand other than BITLEN may be negative,
down to -2^63, and is then two's complement is the model's reading (`OperandFits`, log entry 15). Every packet the
assembler produces, of a pseudo-instruction too, is one the decoder accepts. -/
def Obligations.AssemblerEncodesWhatFitsAndRefusesTheRest : Prop :=
  (∀ nbits value, assemble (.refl nbits value) =
    if nbits ≤ 127 ∧ OperandFits value then
      some (.submit ⟨BitVec.ofNat 32 (0x01 ||| nbits <<< 12), [BitVec.ofInt 64 value]⟩)
    else none) ∧
  (∀ width refin refout poly init xorout, assemble (.cfg width refin refout poly init xorout) =
    if width ≤ 127 ∧ refin ≤ 1 ∧ refout ≤ 1 ∧ OperandFits poly ∧ OperandFits init ∧ OperandFits xorout then
      some (.submit ⟨BitVec.ofNat 32 (0x02 ||| width <<< 12 ||| refin <<< 19 ||| refout <<< 20),
        [BitVec.ofInt 64 poly, BitVec.ofInt 64 init, BitVec.ofInt 64 xorout]⟩)
    else none) ∧
  (∀ index, assemble (.tblrd index) =
    if index ≤ 255 then some (.submit ⟨BitVec.ofNat 32 (0x03 ||| index <<< 12), []⟩) else none) ∧
  (∀ sid, assemble (.snew sid) =
    if sid ≤ 15 then some (.submit ⟨BitVec.ofNat 32 (0x04 ||| sid <<< 8), []⟩) else none) ∧
  (∀ sid addr len, assemble (.upd sid addr len) =
    if sid ≤ 15 ∧ OperandFits addr ∧ OperandFits len then
      some (.submit ⟨BitVec.ofNat 32 (0x05 ||| sid <<< 8), [BitVec.ofInt 64 addr, BitVec.ofInt 64 len]⟩)
    else none) ∧
  (∀ sid addr len bitlen, assemble (.updb sid addr len bitlen) =
    if sid ≤ 15 ∧ OperandFits addr ∧ OperandFits len ∧ BitlenFits bitlen then
      some (.submit ⟨BitVec.ofNat 32 (0x06 ||| sid <<< 8),
        [BitVec.ofInt 64 addr, BitVec.ofInt 64 len, BitVec.ofInt 64 bitlen]⟩)
    else none) ∧
  (∀ sid, assemble (.fin sid) =
    if sid ≤ 15 then some (.submit ⟨BitVec.ofNat 32 (0x07 ||| sid <<< 8), []⟩) else none) ∧
  (∀ sid, assemble (.res sid) =
    if sid ≤ 15 then some (.submit ⟨BitVec.ofNat 32 (0x08 ||| sid <<< 8), []⟩) else none) ∧
  (∀ addr len, assemble (.calcBytes addr len) =
    if OperandFits addr ∧ OperandFits len then
      some (.submit ⟨0x09, [BitVec.ofInt 64 addr, BitVec.ofInt 64 len]⟩)
    else none) ∧
  (∀ addr len bitlen, assemble (.calcb addr len bitlen) =
    if OperandFits addr ∧ OperandFits len ∧ BitlenFits bitlen then
      some (.submit ⟨0x0A, [BitVec.ofInt 64 addr, BitVec.ofInt 64 len, BitVec.ofInt 64 bitlen]⟩)
    else none) ∧
  (∀ line p, assemble line = some (.submit p) → ∃ i, decode p = .ok i)

/-! ## Raced bytes -/

/-- R215: "A model treats each byte the packet reads from a written range as an unconstrained draw". A packet raced by
writes to addresses that exist runs on a state v that differs from the one before only in the host's index, the draw
counter and DMEM, and in DMEM at each written address holds a draw whose number no earlier packet has used; two
addresses have two draws. The draws as an opaque constant numbered by a counter, and the settling of the writes, are
the model's choice (log entry 11); the statement holds whatever values the draws have. -/
def Obligations.RacedBytesAreUnusedDraws : Prop :=
  ∀ (s : State) (p : Packet) (writes : List (Word × Byte)), s.Inv → s.nextOp = some (.submitRace p writes) →
    (∀ w ∈ writes, w.1.toNat < s.params.memSize) →
    ∃ (v : State) (number : Nat → Nat),
      step s = settleRace s.dmem writes (runPacket p v) ∧
      v = { s with pos := s.pos + 1, dmem := v.dmem, draws := s.draws + writes.length } ∧
      (∀ w ∈ writes,
        v.dmem.read w.1.toNat = Config.racedByte (number w.1.toNat) ∧
        s.draws ≤ number w.1.toNat ∧ number w.1.toNat < v.draws) ∧
      (∀ w ∈ writes, ∀ w' ∈ writes, number w.1.toNat = number w'.1.toNat → w.1 = w'.1)
end

