-- ==== Sys2Proof/Laws/Datapath.lean ====
section
/-! SUPPORT. The datapath functions bit by bit, and their linearity over GF(2). -/

namespace Sys2Proof.Machine

/-- Bit i of a reflected value (R100). -/
theorem getLsbD_reflect (v : Word) (n i : Nat) :
    (reflect v n).getLsbD i = (decide (i < 64) && (decide (i < n) && v.getLsbD (n - 1 - i))) := by
  unfold reflect
  rw [BitVec.getLsbD_ofFnLE]
  by_cases h : i < 64 <;> simp [h]

/-- Bit i of `mask(n)` (R10). -/
theorem getLsbD_mask (n i : Nat) : (mask n).getLsbD i = (decide (i < 64) && decide (i < n)) := by
  simp [mask, BitVec.getLsbD_ofNat, Nat.testBit_two_pow_sub_one]

/-- Bit j of a bit step (R130). -/
theorem getLsbD_bitStep (p r : Word) (j : Nat) :
    (bitStep p r).getLsbD j = ((r.getLsbD (j + 1)) ^^ (r.getLsbD 0 && p.getLsbD j)) := by
  unfold bitStep
  cases r.getLsbD 0 <;> simp [Nat.add_comm]

/-- R130: "bitStep is linear over GF(2)". -/
theorem bitStep_xor (p a b : Word) : bitStep p (a ^^^ b) = bitStep p a ^^^ bitStep p b := by
  apply BitVec.eq_of_getLsbD_eq
  intro j _
  simp only [getLsbD_bitStep, BitVec.getLsbD_xor]
  cases a.getLsbD (j + 1) <;> cases b.getLsbD (j + 1) <;> cases a.getLsbD 0 <;> cases b.getLsbD 0 <;>
    cases p.getLsbD j <;> rfl

@[simp] theorem bitStep_zero (p : Word) : bitStep p 0#64 = 0#64 := by simp [bitStep]

/-- k bit steps are linear over GF(2). -/
theorem bitSteps_xor (p : Word) (k : Nat) (a b : Word) :
    bitSteps p k (a ^^^ b) = bitSteps p k a ^^^ bitSteps p k b := by
  induction k generalizing a b with
  | zero => rfl
  | succ k ih => simp only [bitSteps, bitStep_xor, ih]

@[simp] theorem bitSteps_zero (p : Word) (k : Nat) : bitSteps p k 0#64 = 0#64 := by
  induction k with
  | zero => rfl
  | succ k ih => simpa [bitSteps] using ih

/-- Bit steps compose. -/
theorem bitSteps_add (p : Word) (j k : Nat) (r : Word) : bitSteps p (j + k) r = bitSteps p k (bitSteps p j r) := by
  induction j generalizing r with
  | zero => simp [bitSteps]
  | succ j ih => rw [Nat.succ_add]; exact ih _

/-- A bit step of a value whose bit 0 is clear is a shift. -/
theorem bitStep_of_even {p r : Word} (h : r.getLsbD 0 = false) : bitStep p r = r >>> 1 := by
  simp only [bitStep, h, Bool.false_eq_true, if_false]
  exact BitVec.xor_zero

/-- The entry of a table built for p (R116). -/
theorem getElem_buildTable (p : Word) (i : Nat) (h : i < 256) :
    (buildTable p)[i] = tableEntry p (BitVec.ofNat 8 i) := by
  simp only [buildTable, Vector.getElem_ofFn]
  congr 1
  exact BitVec.eq_of_toNat_eq (by simp [Nat.mod_eq_of_lt h])

/-- The entry of an engine whose table is built for its polynomial (R116). -/
theorem entry_of_buildTable {e : Engine} (h : e.tbl = buildTable e.rpoly) (i : Byte) :
    e.entry i = tableEntry e.rpoly i := by
  unfold Engine.entry
  simp only [h, getElem_buildTable, BitVec.ofNat_toNat, BitVec.setWidth_eq]

/-- Bit j of a reflected byte (R102). -/
theorem getLsbD_refl8Rom (b : Byte) (j : Nat) (hj : j < 8) : (refl8Rom b).getLsbD j = b.getLsbD (7 - j) := by
  have h : ∀ (b : Byte) (j : Fin 8), (refl8Rom b).getLsbD j.val = b.getLsbD (7 - j.val) := by decide +kernel
  exact h b ⟨j, hj⟩

end Sys2Proof.Machine
end

