-- ==== Sys2Proof/Laws/Memory.lean ====
section
/-! SUPPORT. The operations on DMEM keep its canonical form. -/

namespace Sys2Proof.Machine

/-- An entry of the memory after a write is the entry written or an entry from before. -/
theorem Memory.mem_write {m : Memory} {x : Nat} {v : Byte} {c : Host.Cell} (h : c ∈ m.write x v) :
    c = (x, v) ∧ v ≠ Memory.unlisted ∨ c ∈ m := by
  induction m with
  | nil => by_cases hv : v = Memory.unlisted <;> simp_all [Memory.write]
  | cons d rest ih =>
    obtain ⟨a, b⟩ := d
    simp only [Memory.write] at h
    split at h
    · rcases List.mem_cons.mp h with h | h
      · exact .inr (h ▸ List.mem_cons_self)
      · exact (ih h).imp_right (List.mem_cons_of_mem _)
    · split at h <;> split at h <;> first | (simp_all; done) | (simp_all; tauto)

/-- A write keeps the canonical form. -/
theorem Memory.wf_write {m : Memory} (h : Memory.wf m) (x : Nat) (v : Byte) : Memory.wf (m.write x v) := by
  refine ⟨?_, fun c hc => ?_⟩
  · induction m with
    | nil => simp only [Memory.write]; split <;> simp
    | cons d rest ih =>
      obtain ⟨a, b⟩ := d
      obtain ⟨hp, hb⟩ := h
      obtain ⟨hlt, hrest⟩ := List.pairwise_cons.mp hp
      have hwf : Memory.wf rest := ⟨hrest, fun c hc => hb c (List.mem_cons_of_mem _ hc)⟩
      simp only [Memory.write]
      split
      · refine List.pairwise_cons.mpr ⟨fun c hc => ?_, ih hwf⟩
        rcases Memory.mem_write hc with ⟨rfl, -⟩ | hc
        · assumption
        · exact hlt c hc
      · split <;> split
        · exact hrest
        · subst_vars; exact List.pairwise_cons.mpr ⟨hlt, hrest⟩
        · exact hp
        · refine List.pairwise_cons.mpr ⟨fun c hc => ?_, hp⟩
          rcases List.mem_cons.mp hc with rfl | hc
          · dsimp only; omega
          · have := hlt c hc; dsimp only at this ⊢; omega
  · rcases Memory.mem_write hc with ⟨rfl, hv⟩ | hc
    · exact hv
    · exact h.2 c hc

/-- A write to an address that exists keeps every listed address below MEM_SIZE. -/
theorem Memory.within_write {m : Memory} {n : Nat} (h : Memory.within m n) {x : Nat} (hx : x < n) (v : Byte) :
    Memory.within (m.write x v) n := by
  intro c hc
  rcases Memory.mem_write hc with ⟨rfl, -⟩ | hc
  · exact hx
  · exact h c hc

/-- Below every listed address a memory reads as unlisted. -/
theorem Memory.read_below {m : Memory} {z : Nat} (h : ∀ c ∈ m, z < c.1) : m.read z = Memory.unlisted := by
  induction m with
  | nil => rfl
  | cons c rest ih =>
    have hz : c.1 ≠ z := Nat.ne_of_gt (h c List.mem_cons_self)
    simp only [Memory.read, if_neg hz]
    exact ih fun d hd => h d (List.mem_cons_of_mem _ hd)

/-- A read after a write gives the byte written at its address, and the byte from before at every other. -/
theorem Memory.read_write {m : Memory} (h : Memory.wf m) (x : Nat) (v : Byte) (y : Nat) :
    (m.write x v).read y = if y = x then v else m.read y := by
  induction m with
  | nil => simp only [Memory.write]; split <;> split <;> simp_all [Memory.read, eq_comm]
  | cons d rest ih =>
    obtain ⟨a, b⟩ := d
    obtain ⟨hp, hb⟩ := h
    obtain ⟨hlt, hrest⟩ := List.pairwise_cons.mp hp
    have below : ∀ z ≤ a, Memory.read rest z = Memory.unlisted := fun z hz =>
      Memory.read_below fun c hc => Nat.lt_of_le_of_lt hz (hlt c hc)
    simp only [Memory.write]
    split
    · simp only [Memory.read, ih ⟨hrest, fun c hc => hb c (List.mem_cons_of_mem _ hc)⟩]
      split <;> split <;> first | rfl | omega
    · by_cases hy : y = x <;> split <;> split <;> simp_all [Memory.read, eq_comm]
      all_goals first | omega | exact below _ (by omega)

/-- A list of writes leaves every address it does not name. -/
theorem Memory.read_writes_other (ws : List (Word × Byte)) {m : Memory} (h : Memory.wf m) {y : Nat}
    (hy : ∀ w ∈ ws, w.1.toNat ≠ y) : (m.writes ws).read y = m.read y := by
  induction ws generalizing m with
  | nil => rfl
  | cons w rest ih =>
    rw [Memory.writes, ih (Memory.wf_write h _ _) fun w' hw' => hy w' (List.mem_cons_of_mem _ hw'),
      Memory.read_write h, if_neg (Ne.symm (hy w List.mem_cons_self))]

/-- A list of writes keeps the canonical form. -/
theorem Memory.wf_writes (ws : List (Word × Byte)) {m : Memory} (h : Memory.wf m) : Memory.wf (m.writes ws) := by
  induction ws generalizing m with
  | nil => exact h
  | cons w rest ih => exact ih (Memory.wf_write h _ _)

/-- A list of writes to addresses that exist keeps every listed address below MEM_SIZE. -/
theorem Memory.within_writes (ws : List (Word × Byte)) {m : Memory} {n : Nat} (h : Memory.within m n)
    (hw : ∀ w ∈ ws, w.1.toNat < n) : Memory.within (m.writes ws) n := by
  induction ws generalizing m with
  | nil => exact h
  | cons w rest ih =>
    exact ih (Memory.within_write h (hw w List.mem_cons_self) _) (fun w' hw' => hw w' (List.mem_cons_of_mem _ hw'))

/-- The draws of a race stand at the addresses written. -/
theorem drawBytes_addresses (n : Nat) (ws : List (Word × Byte)) :
    (drawBytes n ws).map Prod.fst = ws.map Prod.fst := by
  induction ws generalizing n with
  | nil => rfl
  | cons w rest ih => simp [drawBytes, ih]

/-- Reset memory has the canonical form. -/
theorem reset_dmem_wf : Memory.wf State.reset.dmem := ⟨List.Pairwise.nil, nofun⟩

end Sys2Proof.Machine
end

