-- ==== Sys2Proof/Laws/Ops.lean ====
section
/-! SUPPORT. What each shared operation can answer, said once. -/

namespace Sys2Proof.Machine

/-- A chain of checks answers `ok` exactly when each part does. -/
theorem bind_eq_ok {α β : Type} {x : Except Stop α} {f : α → Except Stop β} {b : β} :
    (x >>= f) = .ok b ↔ ∃ a, x = .ok a ∧ f a = .ok b := by
  cases x <;> simp [bind, Except.bind]

/-- A chain of checks stops where its first part stops, or where the rest does. -/
theorem bind_eq_error {α β : Type} {x : Except Stop α} {f : α → Except Stop β} {q : Stop} :
    (x >>= f) = .error q ↔ x = .error q ∨ ∃ a, x = .ok a ∧ f a = .error q := by
  cases x <;> simp [bind, Except.bind]

@[simp] theorem bind_ok {α β : Type} (a : α) (f : α → Except Stop β) : ((.ok a : Except Stop α) >>= f) = f a := rfl
@[simp] theorem bind_error {α β : Type} (q : Stop) (f : α → Except Stop β) :
    ((.error q : Except Stop α) >>= f) = .error q := rfl
@[simp] theorem bind_raise {α β : Type} (c : ErrorCode) (f : α → Except Stop β) :
    ((raise c : Except Stop α) >>= f) = raise c := rfl
@[simp] theorem pure_eq_ok {α : Type} (a : α) : (pure a : Except Stop α) = .ok a := rfl

/-- The two ways a command answers a next state (R185, R191): its body succeeds, or it raises a code. -/
theorem command_next {h : Header} {s t : State} {body : Except Stop State} (hc : command h s body = .next t) :
    (∃ u, body = .ok u ∧ t = u.complete .ok h) ∨ (∃ c, body = .error (.code c) ∧ t = s.complete c h) := by
  unfold command at hc
  split at hc
  · exact .inl ⟨_, rfl, by simpa using hc.symm⟩
  · exact .inr ⟨_, rfl, by simpa using hc.symm⟩
  · simp at hc

/-- A command faults only where its body meets a model fault. -/
theorem command_fault {h : Header} {s : State} {body : Except Stop State} {f : Fault}
    (hc : command h s body = .fault f) : body = .error (.model f) := by
  unfold command at hc
  split at hc <;> simp_all

/-- A command is never refused. -/
theorem command_not_refused {h : Header} {s : State} {body : Except Stop State} {q : Refusal} :
    command h s body ≠ .refused q := by
  unfold command
  split <;> simp

@[simp] theorem command_ok (h : Header) (s u : State) : command h s (.ok u) = .next (u.complete .ok h) := rfl
@[simp] theorem command_raise (h : Header) (s : State) (c : ErrorCode) :
    command h s (raise c) = .next (s.complete c h) := rfl

@[simp] theorem raiseIf_true (c : ErrorCode) : raiseIf true c = raise c := rfl
@[simp] theorem raiseIf_false (c : ErrorCode) : raiseIf false c = .ok () := rfl

/-- A check passes exactly when its condition does not hold. -/
theorem raiseIf_eq_ok {bad : Bool} {c : ErrorCode} {u : Unit} : raiseIf bad c = .ok u ↔ bad = false := by
  cases bad <;> simp [raiseIf, raise]

/-- The engine check passes exactly when ENG.V = 1 (R183). -/
theorem requireEngine_eq_ok {s : State} {e : Engine} : s.requireEngine = .ok e ↔ s.eng = some e := by
  unfold State.requireEngine
  cases s.eng <;> simp [raise]

/-- The session check passes exactly when S < NSESS and SESS[S].V = 1 (R184). -/
theorem requireSession_eq_ok {s : State} {sid : SessionIndex} {r : Word} :
    s.requireSession sid = .ok r ↔ sid.toNat < s.params.nsess ∧ s.session sid = some r := by
  unfold State.requireSession State.noSuchSession
  by_cases hn : s.params.nsess ≤ sid.toNat
  · simp [hn, raise]
  · cases hs : s.session sid with
    | none => simp [hn, raise]
    | some r' => simp [hn]; omega

/-- The session check raises `InvalidSession` in every other case. -/
theorem requireSession_eq_raise {s : State} {sid : SessionIndex}
    (h : s.params.nsess ≤ sid.toNat ∨ s.session sid = none) : s.requireSession sid = raise .invalidSession := by
  unfold State.requireSession State.noSuchSession
  rcases h with h | h <;> simp [h]

/-- MemRead answers the bytes in address order, exactly when they all exist (R54). -/
theorem memRead_eq_ok {s : State} {a n : Nat} {bs : List Byte} :
    s.memRead a n = .ok bs ↔
      a + n ≤ s.params.memSize ∧ bs = (List.range n).map (fun j => s.dmem.read (a + j)) := by
  unfold State.memRead
  split <;> simp_all [eq_comm]

/-- The reverser answers exactly for the widths 1 to 64 (R100). -/
theorem reflectUnit_eq_ok {v r : Word} {n : Nat} : reflectUnit v n = .ok r ↔ (1 ≤ n ∧ n ≤ 64) ∧ r = reflect v n := by
  unfold reflectUnit
  split <;> simp_all [eq_comm]

/-- The tail unit answers exactly for the bit counts 1 to 8 (R133). -/
theorem bbbUpdate_eq_ok {e : Engine} {r v : Word} {b : Byte} {k : Nat} :
    bbbUpdate e r b k = .ok v ↔
      (1 ≤ k ∧ k ≤ 8) ∧ v = bitSteps e.rpoly k (r ^^^ ((e.inputByte b).setWidth 64 &&& mask k)) := by
  unfold bbbUpdate
  split <;> simp_all [eq_comm]

/-- The decoding of a bit length leaves at most 7 trailing bits (R133, R140). -/
theorem decodeBitLength_trailing (bl : Int) (len : Nat) : (decodeBitLength bl len).2 ≤ 7 := by
  unfold decodeBitLength
  split
  · dsimp only; omega
  · exact Nat.zero_le _

/-- What one step can be: nothing left to do, or one operation of the host after the index went up by 1. -/
theorem step_cases (s : State) :
    (s.nextOp = none ∧ step s = .next s) ∨ ∃ op, s.nextOp = some op ∧ step s = perform op s.advance := by
  unfold step
  cases h : s.nextOp <;> simp

end Sys2Proof.Machine
end

