-- ==== Sys2Proof/Laws/PerInstr.lean ====
section
/-! SUPPORT. Facts about every command as syntax, one lemma per constructor. -/

namespace Sys2Proof.Laws.EncodeShape

/-- R79, R80: the encoded packet of a command carries the operand count and the opcode of a row of the opcode map,
and is a packet of the command port (R70). -/
def Statement (i : Instr) : Prop :=
  (encode i).wellFormed = true ∧
    ∃ row ∈ opcodeMap, (encode i).operands.length = row.k ∧ opcOf (encode i).header = row.opc

/-- A header with the opcode in its low byte and other fields above it. -/
theorem opcOf_or_shift {w n : Nat} (opc : Header) (f : BitVec w) (hn : 8 ≤ n) :
    opcOf (opc ||| (f.setWidth 32 <<< n)) = opcOf opc := by
  apply BitVec.eq_of_getLsbD_eq
  intro j hj
  simp [opcOf, BitVec.getLsbD_extractLsb', show j < n by omega]

theorem refl (nbits : BitVec 7) (value : Word) : Statement (.refl nbits value) :=
  ⟨rfl, opcodeMap[0], by decide, rfl, by simp [encode, Instr.header, opcOf_or_shift]; rfl⟩

theorem cfg (width : BitVec 7) (refin refout : Bool) (poly init xorout : Word) :
    Statement (.cfg width refin refout poly init xorout) :=
  ⟨rfl, opcodeMap[1], by decide, rfl, by simp [encode, Instr.header, opcOf_or_shift]; rfl⟩

theorem tblrd (index : BitVec 8) : Statement (.tblrd index) :=
  ⟨rfl, opcodeMap[2], by decide, rfl, by simp [encode, Instr.header, opcOf_or_shift]; rfl⟩

theorem snew (sid : SessionIndex) : Statement (.snew sid) :=
  ⟨rfl, opcodeMap[3], by decide, rfl, by simp [encode, Instr.header, opcOf_or_shift]; rfl⟩

theorem upd (sid : SessionIndex) (addr len : Word) : Statement (.upd sid addr len) :=
  ⟨rfl, opcodeMap[4], by decide, rfl, by simp [encode, Instr.header, opcOf_or_shift]; rfl⟩

theorem updb (sid : SessionIndex) (addr len bitlen : Word) : Statement (.updb sid addr len bitlen) :=
  ⟨rfl, opcodeMap[5], by decide, rfl, by simp [encode, Instr.header, opcOf_or_shift]; rfl⟩

theorem fin (sid : SessionIndex) : Statement (.fin sid) :=
  ⟨rfl, opcodeMap[6], by decide, rfl, by simp [encode, Instr.header, opcOf_or_shift]; rfl⟩

theorem res (sid : SessionIndex) : Statement (.res sid) :=
  ⟨rfl, opcodeMap[7], by decide, rfl, by simp [encode, Instr.header, opcOf_or_shift]; rfl⟩

theorem calcBytes (addr len : Word) : Statement (.calcBytes addr len) :=
  ⟨rfl, opcodeMap[8], by decide, rfl, rfl⟩

theorem calcb (addr len bitlen : Word) : Statement (.calcb addr len bitlen) :=
  ⟨rfl, opcodeMap[9], by decide, rfl, rfl⟩

end Sys2Proof.Laws.EncodeShape
end

