-- ==== Sys2Proof/Laws/State.lean ====
section
/-! SUPPORT. One lemma per field per update of State that changes or keeps it. -/

namespace Sys2Proof.Machine

variable (s : State)

/-! `advance` -/
@[simp] theorem State.advance_eng : s.advance.eng = s.eng := rfl
@[simp] theorem State.advance_sess : s.advance.sess = s.sess := rfl
@[simp] theorem State.advance_oneReg : s.advance.oneReg = s.oneReg := rfl
@[simp] theorem State.advance_result : s.advance.result = s.result := rfl
@[simp] theorem State.advance_status : s.advance.status = s.status := rfl
@[simp] theorem State.advance_errhdr : s.advance.errhdr = s.errhdr := rfl
@[simp] theorem State.advance_dmem : s.advance.dmem = s.dmem := rfl
@[simp] theorem State.advance_params : s.advance.params = s.params := rfl
@[simp] theorem State.advance_host : s.advance.host = s.host := rfl
@[simp] theorem State.advance_pos : s.advance.pos = s.pos + 1 := rfl
@[simp] theorem State.advance_seen : s.advance.seen = s.seen := rfl
@[simp] theorem State.advance_draws : s.advance.draws = s.draws := rfl

/-! `complete` -/
variable (c : ErrorCode) (h : Header)
@[simp] theorem State.complete_eng : (s.complete c h).eng = s.eng := rfl
@[simp] theorem State.complete_sess : (s.complete c h).sess = s.sess := rfl
@[simp] theorem State.complete_oneReg : (s.complete c h).oneReg = s.oneReg := rfl
@[simp] theorem State.complete_result : (s.complete c h).result = s.result := rfl
@[simp] theorem State.complete_status : (s.complete c h).status = recordStatus s.status c s.engV := rfl
@[simp] theorem State.complete_errhdr : (s.complete c h).errhdr = if c = .ok then s.errhdr else h := rfl
@[simp] theorem State.complete_dmem : (s.complete c h).dmem = s.dmem := rfl
@[simp] theorem State.complete_params : (s.complete c h).params = s.params := rfl
@[simp] theorem State.complete_host : (s.complete c h).host = s.host := rfl
@[simp] theorem State.complete_pos : (s.complete c h).pos = s.pos := rfl
@[simp] theorem State.complete_seen : (s.complete c h).seen = s.seen := rfl
@[simp] theorem State.complete_draws : (s.complete c h).draws = s.draws := rfl
@[simp] theorem State.complete_engV : (s.complete c h).engV = s.engV := rfl
@[simp] theorem State.complete_session (sid : SessionIndex) : (s.complete c h).session sid = s.session sid := rfl

/-! `setSession` -/
variable (sid : SessionIndex) (r : Word)
@[simp] theorem State.setSession_eng : (s.setSession sid r).eng = s.eng := rfl
@[simp] theorem State.setSession_sess :
    (s.setSession sid r).sess = s.sess.set sid.toNat (some r) sid.isLt := rfl
@[simp] theorem State.setSession_oneReg : (s.setSession sid r).oneReg = s.oneReg := rfl
@[simp] theorem State.setSession_result : (s.setSession sid r).result = s.result := rfl
@[simp] theorem State.setSession_status : (s.setSession sid r).status = s.status := rfl
@[simp] theorem State.setSession_errhdr : (s.setSession sid r).errhdr = s.errhdr := rfl
@[simp] theorem State.setSession_dmem : (s.setSession sid r).dmem = s.dmem := rfl
@[simp] theorem State.setSession_params : (s.setSession sid r).params = s.params := rfl
@[simp] theorem State.setSession_host : (s.setSession sid r).host = s.host := rfl
@[simp] theorem State.setSession_pos : (s.setSession sid r).pos = s.pos := rfl
@[simp] theorem State.setSession_seen : (s.setSession sid r).seen = s.seen := rfl
@[simp] theorem State.setSession_draws : (s.setSession sid r).draws = s.draws := rfl
@[simp] theorem State.setSession_engV : (s.setSession sid r).engV = s.engV := rfl

/-- SESS[S] after `SESS[S].REG <- r`. -/
@[simp] theorem State.session_setSession_same : (s.setSession sid r).session sid = some r := by
  simp [State.session, State.setSession]

/-- Another session after `SESS[S].REG <- r`. -/
theorem State.session_setSession_other {other : SessionIndex} (hne : other ≠ sid) :
    (s.setSession sid r).session other = s.session other := by
  have : sid.toNat ≠ other.toNat := fun he => hne (BitVec.eq_of_toNat_eq he.symm)
  simp [State.session, State.setSession, this]

/-! `closeSessions` -/
@[simp] theorem State.closeSessions_eng : s.closeSessions.eng = s.eng := rfl
@[simp] theorem State.closeSessions_oneReg : s.closeSessions.oneReg = s.oneReg := rfl
@[simp] theorem State.closeSessions_result : s.closeSessions.result = s.result := rfl
@[simp] theorem State.closeSessions_status : s.closeSessions.status = s.status := rfl
@[simp] theorem State.closeSessions_errhdr : s.closeSessions.errhdr = s.errhdr := rfl
@[simp] theorem State.closeSessions_dmem : s.closeSessions.dmem = s.dmem := rfl
@[simp] theorem State.closeSessions_params : s.closeSessions.params = s.params := rfl
@[simp] theorem State.closeSessions_session : s.closeSessions.session sid = none := by
  simp [State.session, State.closeSessions]

/-! The scratch register -/
@[simp] theorem State.readOne_writeOne : (s.writeOne r).readOne = .ok r := rfl
@[simp] theorem State.writeOne_params : (s.writeOne r).params = s.params := rfl
@[simp] theorem State.writeOne_dmem : (s.writeOne r).dmem = s.dmem := rfl
@[simp] theorem State.writeOne_writeOne (r' : Word) : (s.writeOne r).writeOne r' = s.writeOne r' := rfl
@[simp] theorem State.dropOne_writeOne : (s.writeOne r).dropOne = s.dropOne := rfl
@[simp] theorem State.dropOne_oneReg : s.dropOne.oneReg = none := rfl

/-! `enterReset` -/
@[simp] theorem State.enterReset_eng : s.enterReset.eng = none := rfl
@[simp] theorem State.enterReset_oneReg : s.enterReset.oneReg = none := rfl
@[simp] theorem State.enterReset_result : s.enterReset.result = 0 := rfl
@[simp] theorem State.enterReset_status : s.enterReset.status = 0 := rfl
@[simp] theorem State.enterReset_errhdr : s.enterReset.errhdr = 0 := rfl
@[simp] theorem State.enterReset_dmem : s.enterReset.dmem = s.dmem := rfl
@[simp] theorem State.enterReset_params : s.enterReset.params = s.params := rfl
@[simp] theorem State.enterReset_session : s.enterReset.session sid = none := by
  simp [State.session, State.enterReset]

end Sys2Proof.Machine
end

