-- ==== Sys2Proof/Tests/Slice0.lean ====
section
/-! SUPPORT. Tests: ill-formed terms, decoding of words written out from spec/30_encoding.md, one-step tests with the
values of spec/95_test_vectors.md, and a witness for the hypotheses of each statement that has some. -/

namespace Sys2Proof.Tests

-- One theorem at a time: elaborated side by side, their kernel evaluations wait on one another in too many threads.
set_option Elab.async false

open Sys2Proof Sys2Proof.Machine

/-! ## Ill-formed terms (R70, R87, R88) -/

theorem test_packet_with_four_operands : Packet.wellFormed ⟨0x00000006, [1, 2, 3, 4]⟩ = false := by decide
theorem test_refl_nbits_too_wide : AsmLine.wellFormed (.refl 128 0) = false := by decide
theorem test_refl_value_too_wide : AsmLine.wellFormed (.refl 8 (2 ^ 64)) = false := by decide
theorem test_cfg_width_too_wide : AsmLine.wellFormed (.cfg 128 0 0 0 0 0) = false := by decide
theorem test_cfg_flag_too_wide :
    AsmLine.wellFormed (.cfg 8 2 0 0 0 0) = false ∧ AsmLine.wellFormed (.cfg 8 0 2 0 0 0) = false := by decide
theorem test_cfg_operand_too_wide :
    AsmLine.wellFormed (.cfg 8 0 0 (2 ^ 64) 0 0) = false ∧ AsmLine.wellFormed (.cfg 8 0 0 0 (2 ^ 64) 0) = false ∧
    AsmLine.wellFormed (.cfg 8 0 0 0 0 (2 ^ 64)) = false := by decide
theorem test_tblrd_index_too_wide : AsmLine.wellFormed (.tblrd 256) = false := by decide
theorem test_session_too_wide :
    AsmLine.wellFormed (.snew 16) = false ∧ AsmLine.wellFormed (.upd 16 0 0) = false ∧
    AsmLine.wellFormed (.updb 16 0 0 0) = false ∧ AsmLine.wellFormed (.fin 16) = false ∧
    AsmLine.wellFormed (.res 16) = false ∧ AsmLine.wellFormed (.updbits 16 0 0) = false ∧
    AsmLine.wellFormed (.updall 16 0 0) = false := by decide
theorem test_buffer_too_wide :
    AsmLine.wellFormed (.upd 0 (2 ^ 64) 0) = false ∧ AsmLine.wellFormed (.upd 0 0 (2 ^ 64)) = false ∧
    AsmLine.wellFormed (.updb 0 (2 ^ 64) 0 0) = false ∧ AsmLine.wellFormed (.updb 0 0 (2 ^ 64) 0) = false ∧
    AsmLine.wellFormed (.calcBytes (2 ^ 64) 0) = false ∧ AsmLine.wellFormed (.calcBytes 0 (2 ^ 64)) = false ∧
    AsmLine.wellFormed (.calcb (2 ^ 64) 0 0) = false ∧ AsmLine.wellFormed (.calcb 0 (2 ^ 64) 0) = false ∧
    AsmLine.wellFormed (.updall 0 (2 ^ 64) 0) = false ∧ AsmLine.wellFormed (.updall 0 0 (2 ^ 64)) = false ∧
    AsmLine.wellFormed (.updbits 0 (2 ^ 64) 0) = false ∧ AsmLine.wellFormed (.calcbits (2 ^ 64) 0) = false := by
  decide
theorem test_bitlen_too_wide :
    AsmLine.wellFormed (.updb 0 0 0 (2 ^ 63)) = false ∧ AsmLine.wellFormed (.updb 0 0 0 (-2 ^ 63 - 1)) = false ∧
    AsmLine.wellFormed (.calcb 0 0 (2 ^ 63)) = false ∧ AsmLine.wellFormed (.calcbits 0 (2 ^ 63)) = false := by decide
theorem test_negative_nbits :
    AsmLine.wellFormed (.updbits 0 0 (-1)) = false ∧ AsmLine.wellFormed (.calcbits 0 (-1)) = false := by decide
theorem test_extreme_values_are_well_formed :
    AsmLine.wellFormed (.refl 127 (2 ^ 64 - 1)) = true ∧ AsmLine.wellFormed (.snew 15) = true ∧
    AsmLine.wellFormed (.updb 15 0 0 (-2 ^ 63)) = true ∧ Packet.wellFormed ⟨0, [1, 2, 3]⟩ = true := by decide

/-! ## Decoding: each header field by field from bit 31 down, as R72 to R77 draw it -/

theorem test_decode_refl :
    decode ⟨0#13 ++ 32#7 ++ 0#4 ++ 0x01#8, [0x04C11DB7]⟩ = .ok (.refl 32 0x04C11DB7) := by decide
theorem test_decode_cfg :
    decode ⟨0#11 ++ 0#1 ++ 1#1 ++ 5#7 ++ 0#4 ++ 0x02#8, [0x05, 0x1F, 0x1E]⟩ =
      .ok (.cfg 5 true false 0x05 0x1F 0x1E) := by decide
theorem test_decode_tblrd : decode ⟨0#12 ++ 255#8 ++ 0#4 ++ 0x03#8, []⟩ = .ok (.tblrd 255) := by decide
theorem test_decode_snew : decode ⟨0#20 ++ 1#4 ++ 0x04#8, []⟩ = .ok (.snew 1) := by decide
theorem test_decode_upd : decode ⟨0#20 ++ 2#4 ++ 0x05#8, [0x100, 13]⟩ = .ok (.upd 2 0x100 13) := by decide
theorem test_decode_updb :
    decode ⟨0#20 ++ 1#4 ++ 0x06#8, [0x100, 5, 34]⟩ = .ok (.updb 1 0x100 5 34) := by decide
theorem test_decode_fin : decode ⟨0#20 ++ 15#4 ++ 0x07#8, []⟩ = .ok (.fin 15) := by decide
theorem test_decode_res : decode ⟨0#20 ++ 3#4 ++ 0x08#8, []⟩ = .ok (.res 3) := by decide
theorem test_decode_calc : decode ⟨0#24 ++ 0x09#8, [0x100, 9]⟩ = .ok (.calcBytes 0x100 9) := by decide
theorem test_decode_calcb :
    decode ⟨0#24 ++ 0x0A#8, [0x100, 9, 0xFFFFFFFFFFFFFFFB]⟩ = .ok (.calcb 0x100 9 0xFFFFFFFFFFFFFFFB) := by decide

/-- spec/95_test_vectors.md 2.2, 2.5 and 2.6. -/
theorem test_decode_rejects :
    decode ⟨0x00005102, [5, 0, 0]⟩ = .error .reservedBitSet ∧ decode ⟨0x00001207, []⟩ = .error .reservedBitSet ∧
    decode ⟨0x00000207, [0]⟩ = .error .wrongOperandCount ∧ decode ⟨0x00020001, []⟩ = .error .wrongOperandCount ∧
    decode ⟨0x000000FF, []⟩ = .error .unassignedOpcode ∧ decode ⟨0x00000000, []⟩ = .error .unassignedOpcode := by
  decide

/-- R85: 4 header bytes, then 8 operand bytes, each word in little-endian order. -/
theorem test_decode_bytes :
    decodeBytes [0x01, 0x00, 0x02, 0x00, 0xB7, 0x1D, 0xC1, 0x04, 0, 0, 0, 0] = .ok (.refl 32 0x04C11DB7) ∧
    decodeBytes [0x01, 0x00, 0x02] = .error .notAPacket := by decide

/-- Bit 0 is bit 0 of H; OP0 is bits 95..32. -/
theorem test_decode_table_word :
    decodeTableWord 96 (0x00020001 + 0x04C11DB7 * 2 ^ 32) = some (.refl 32 0x04C11DB7) ∧
    decodeTableWord 32 0x0000000A = some (.calcb 0 0 0) ∧ decodeTableWord 32 0x000000FF = none := by decide

/-- R87: encoding, from the rule's column "packet". -/
theorem test_encode :
    encode (.cfg 32 true true 0x04C11DB7 0xFFFFFFFF 0xFFFFFFFF) =
      ⟨0x001A0002, [0x04C11DB7, 0xFFFFFFFF, 0xFFFFFFFF]⟩ ∧
    encode (.tblrd 255) = ⟨0x000FF003, []⟩ ∧ encode (.fin 2) = ⟨0x00000207, []⟩ := by decide

/-! ## Small states -/

/-- "123456789" at address a (spec/95_test_vectors.md). -/
def digits (a : Nat) : Memory := (List.range 9).map (fun j => (a + j, BitVec.ofNat 8 (0x31 + j)))

/-- A state with an engine, session 1 open at r, and "123456789" at 0x100. -/
def withEngine (e : Engine) (r : Word) : State :=
  { State.reset with
    eng := some e, sess := (Vector.replicate 16 none).set 1 (some r), status := 0x10, dmem := digits 0x100 }

/-- CRC-5/USB (R14; the normalised values are those of spec/95_test_vectors.md 2.2). -/
def usb : Engine := ⟨5, 0x14, 0x1F, 0x1F, true, true, buildTable 0x14⟩
/-- CRC-16/XMODEM. -/
def xmodem : Engine := ⟨16, 0x8408, 0, 0, false, false, buildTable 0x8408⟩
/-- CRC-32/ISO-HDLC. -/
def crc32 : Engine := ⟨32, 0xEDB88320, 0xFFFFFFFF, 0xFFFFFFFF, true, true, buildTable 0xEDB88320⟩

/-- The state after, if there is one. -/
def after : Host.Outcome State Fault Refusal → Option State
  | .next t => some t
  | .fault _ => none
  | .refused _ => none

def resultOf (o : Host.Outcome State Fault Refusal) : Option Word := (after o).map (·.result)
def statusOf (o : Host.Outcome State Fault Refusal) : Option (BitVec 32) := (after o).map (·.status)
def sessionOf (sid : SessionIndex) (o : Host.Outcome State Fault Refusal) : Option Word :=
  (after o).bind (·.session sid)

/-! ## One step of each command -/

theorem test_refl_polynomial : resultOf (exec (.refl 32 0x04C11DB7) .reset) = some 0xEDB88320 := by decide +kernel
theorem test_refl_ignores_high_bits : resultOf (exec (.refl 4 0x123) .reset) = some 0xC := by decide +kernel
theorem test_cfg_crc32 :
    (after (exec (.cfg 32 true true 0x04C11DB7 0xFFFFFFFF 0xFFFFFFFF) .reset)).bind
      (fun t => t.eng.map (fun e => (e.w, e.rpoly, e.rinit, e.entry 1, t.status))) =
      some (32, 0xEDB88320, 0xFFFFFFFF, 0x77073096, 0x10) := by decide +kernel
theorem test_cfg_value_over_mask :
    (after (exec (.cfg 5 true true 0x20 0 0) (withEngine usb 0x1F))).map
      (fun t => (statusLast t.status, t.eng.map (·.w), t.session 1)) = some (4, some 5, some 0x1F) := by
  decide +kernel
theorem test_tblrd_last_entry : resultOf (exec (.tblrd 255) (withEngine crc32 0)) = some 0x2D02EF8D := by
  decide +kernel
theorem test_tblrd_without_engine :
    (after (exec (.tblrd 0) .reset)).map (fun t => (t.status, t.errhdr)) = some (0x00040002, 0x00000003) := by
  decide +kernel
theorem test_snew_opens : sessionOf 3 (exec (.snew 3) (withEngine usb 0)) = some 0x1F := by decide +kernel
theorem test_snew_no_such_session :
    (statusOf (exec (.snew 4) (withEngine usb 0))).map statusLast = some 3 := by decide +kernel
theorem test_upd_whole_message : sessionOf 1 (exec (.upd 1 0x100 9) (withEngine usb 0x1F)) = some 0x06 := by
  decide +kernel
theorem test_upd_at_memory_end :
    (statusOf (exec (.upd 1 0xFFF 1) (withEngine usb 0x1F))).map statusLast = some 0 ∧
    (statusOf (exec (.upd 1 0xFFF 2) (withEngine usb 0x1F))).map statusLast = some 7 := by decide +kernel
theorem test_updb_refin : sessionOf 1 (exec (.updb 1 0x100 5 34) (withEngine usb 0x1F)) = some 0x0E := by
  decide +kernel
theorem test_updb_no_refin : sessionOf 1 (exec (.updb 1 0x100 5 35) (withEngine xmodem 0)) = some 0xF533 := by
  decide +kernel
theorem test_fin_refout : resultOf (exec (.fin 1) (withEngine usb 0x06)) = some 0x19 := by decide +kernel
theorem test_fin_no_refout : resultOf (exec (.fin 1) (withEngine xmodem 0xC38C)) = some 0x31C3 := by decide +kernel
theorem test_res_refout : resultOf (exec (.res 1) (withEngine crc32 0xDEBB20E3)) = some 0xDEBB20E3 := by
  decide +kernel
theorem test_res_closed_session :
    (statusOf (exec (.res 2) (withEngine usb 0x06))).map statusLast = some 3 := by decide +kernel
theorem test_calc_check_value : resultOf (exec (.calcBytes 0x100 9) (withEngine crc32 0)) = some 0xCBF43926 := by
  decide +kernel
theorem test_calc_keeps_sessions :
    sessionOf 1 (exec (.calcBytes 0x100 9) (withEngine usb 0x0E)) = some 0x0E := by decide +kernel
theorem test_calcb_any_negative :
    resultOf (exec (.calcb 0x100 9 0xFFFFFFFFFFFFFFFB) (withEngine crc32 0)) = some 0xCBF43926 := by decide +kernel
theorem test_calcb_detection_order :
    (statusOf (exec (.calcb 0xFFF8 9 73) (withEngine crc32 0))).map statusLast = some 5 := by decide +kernel

/-! ## The host's operations -/

/-- R102: the ROM against R100. -/
theorem test_refl8_rom : ∀ b : Byte, (refl8Rom b).setWidth 64 = reflect (b.setWidth 64) 8 := by decide +kernel

/-- spec/95_test_vectors.md 2.6, the last rows, as a word at the port. -/
theorem test_step_runs_a_fetched_word :
    (after (step (State.reset.withFetchWord 32 0x000000FF))).map (fun t => (t.status, t.errhdr)) =
      some (0x00020001, 0x000000FF) ∧
    resultOf (step (State.reset.withFetchWord 96 (0x00008001 + 0x1234 * 2 ^ 32))) = some 0x2C := by decide +kernel

/-- R210, R211: a packet under reset is abandoned. -/
theorem test_step_reset_during_packet :
    (after (step { withEngine usb 0x1F with host := [.submitReset (encode (.upd 1 0x100 9))] })).map
      (fun t => (t.eng.isSome, t.session 1, t.status, t.dmem.read 0x100)) = some (false, none, 0, 0x31) := by
  decide +kernel

/-- R215, R51: after a raced packet DMEM holds the host's write. -/
theorem test_step_race_settles :
    (after (step { withEngine usb 0x1F with
      host := [.submitRace (encode (.snew 1)) [(0x100, 0xAA)]] })).map (fun t => (t.dmem.read 0x100, t.dmem.read 0x101)) =
      some (0xAA, 0x32) := by decide +kernel

/-- Writing what an unlisted address reads as removes the entry. -/
theorem test_memory_canonical : Memory.write [(4, 7), (9, 1)] 4 0 = [(9, 1)] ∧
    Memory.write [(4, 7), (9, 1)] 5 3 = [(4, 7), (5, 3), (9, 1)] := by decide

/-! ## The assembler (R87, R88, R89) -/

theorem test_assemble_text :
    assembleText "cfg 32, 1, 1, 0x04C11DB7, 0xFFFFFFFF, 0xFFFFFFFF" =
      some (.submit ⟨0x001A0002, [0x04C11DB7, 0xFFFFFFFF, 0xFFFFFFFF]⟩) ∧
    assembleText "calcb 0x100, 9, -5" = some (.submit ⟨0x0000000A, [0x100, 0x9, 0xFFFFFFFFFFFFFFFB]⟩) ∧
    assembleText "fin s2" = some (.submit ⟨0x00000207, []⟩) ∧
    assembleText "updbits s1, 0x100, 34" = some (.submit ⟨0x00000106, [0x100, 0x5, 0x22]⟩) ∧
    assembleText "host: read RESULT" = some (.read .result) ∧ assembleText "snew s16" = none := by decide +kernel

/-! ## Witnesses for the statements -/

/-- The session register of the small states. -/
theorem withEngine_session (e : Engine) (r : Word) :
    ∀ sid : SessionIndex, (withEngine e r).session sid = if sid = 1 then some r else none := by
  have key : ∀ (f : Option Word) (sid : SessionIndex),
      ((Vector.replicate 16 (none : Option Word)).set 1 f)[sid.toNat]'sid.isLt = if sid = 1 then f else none := by
    intro f sid
    rw [Vector.getElem_set]
    by_cases h : sid = 1
    · subst h; rfl
    · have : ¬ 1 = sid.toNat := fun hh => h (BitVec.eq_of_toNat_eq hh.symm)
      rw [if_neg this, if_neg h, Vector.getElem_replicate]
  exact key (some r)

/-- A small state meets the invariant. -/
theorem withEngine_inv {e : Engine} {r : Word} (he : e.Inv Params.reference) (hr : r.toNat < 2 ^ e.w.toNat) :
    (withEngine e r).Inv where
  params_legal := show Params.reference.Legal by decide
  engine := fun e' h => by cases h; exact he
  session := fun sid r' h => by
    rw [withEngine_session] at h
    by_cases hs : sid = 1
    · subst hs; cases h; exact ⟨show 1 < 4 by decide, e, rfl, hr⟩
    · rw [if_neg hs] at h; cases h
  status_engv := show statusEngv 0x10 = true by decide
  status_last := show (statusLast 0x10).toNat ≤ 7 by decide
  status_reserved := show 0x10#32 &&& 0xFF01FFE0#32 = 0 by decide
  scratch := rfl
  dmem_wf := show Memory.wf (digits 0x100) by decide
  dmem_within := show Memory.within (digits 0x100) 0x1000 by decide

theorem usb_inv : usb.Inv Params.reference := by
  refine ⟨by decide, by decide, by decide +kernel, rfl⟩

theorem xmodem_inv : xmodem.Inv Params.reference := by
  refine ⟨by decide, by decide, by decide +kernel, rfl⟩

/-- CRC-5/USB with session 1 just opened. -/
abbrev usbState : State := withEngine usb 0x1F
/-- CRC-16/XMODEM with session 1 open. -/
abbrev xmodemState : State := withEngine xmodem 0xC38C

theorem usbState_inv : usbState.Inv := withEngine_inv usb_inv (by decide)
theorem xmodemState_inv : xmodemState.Inv := withEngine_inv xmodem_inv (by decide)
theorem usbState_session : usbState.session 1 = some 0x1F := withEngine_session usb 0x1F 1
theorem xmodemState_session : xmodemState.session 1 = some 0xC38C := withEngine_session xmodem 0xC38C 1

/-- A step or a command that ends with code c, from its evaluation. -/
theorem ends_with {o : Host.Outcome State Fault Refusal} {c : BitVec 4}
    (h : (statusOf o).map statusLast = some c) : ∃ t, o = .next t ∧ statusLast t.status = c := by
  cases o with
  | next t => exact ⟨t, rfl, by simpa [statusOf, after] using h⟩
  | fault f => simp [statusOf, after] at h
  | refused r => simp [statusOf, after] at h

/-- The host's next operation on a state whose index is 0. -/
def hosting (s : State) (op : HostOp) : State := { s with host := [op] }

/-- The invariant says nothing of the host's side. -/
theorem hosting_inv {s : State} (h : s.Inv) (op : HostOp) : (hosting s op).Inv :=
  ⟨h.params_legal, h.engine, h.session, h.status_engv, h.status_last, h.status_reserved, h.scratch, h.dmem_wf,
    h.dmem_within⟩

theorem witness_EncodeOfDecode : decode ⟨0x00000104, []⟩ = .ok (.snew 1) := by decide

theorem witness_PacketBytesAreLittleEndian :
    (⟨0x0000000A, [1, 2, 3]⟩ : Packet).operands[2]? = some 3 ∧
    (⟨0x0000000A, [1, 2, 3]⟩ : Packet).operands.length ≤ 3 := by decide

theorem witness_StepRunsTheDecodedPacket :
    (hosting usbState (.submit ⟨0x00000107, []⟩)).nextOp = some (.submit ⟨0x00000107, []⟩) ∧
    decode ⟨0x00000107, []⟩ = .ok (.fin 1) := ⟨rfl, by decide⟩

theorem witness_StepRecordsAnIllegalPacket :
    (hosting usbState (.submit ⟨0x00000107, [0]⟩)).nextOp = some (.submit ⟨0x00000107, [0]⟩) ∧
    ¬ LegalPacket ⟨0x00000107, [0]⟩ := ⟨rfl, by unfold LegalPacket; decide⟩

theorem witness_IdleStepChangesNothing : usbState.nextOp = none := rfl

theorem witness_ResetInputEntersTheResetState :
    (hosting usbState .reset).nextOp = some .reset ∧ isReset .reset = true ∧
    (hosting usbState (.submitReset ⟨0x00000107, []⟩)).nextOp = some (.submitReset ⟨0x00000107, []⟩) ∧
    isReset (.submitReset ⟨0x00000107, []⟩) = true := ⟨rfl, rfl, rfl, rfl⟩

theorem witness_StepKeepsTheInvariant :
    (hosting usbState (.submit ⟨0x00000105, [0x100, 9]⟩)).Inv ∧
    ∃ t, step (hosting usbState (.submit ⟨0x00000105, [0x100, 9]⟩)) = .next t ∧ statusLast t.status = 0 :=
  ⟨hosting_inv usbState_inv _, ends_with (by decide +kernel)⟩

theorem witness_EveryCommandCompletes : usbState.Inv := usbState_inv

theorem witness_EveryStepCompletes :
    (hosting usbState (.write 0xFFF 1)).Inv ∧ (hosting usbState (.write 0xFFF 1)).nextOp = some (.write 0xFFF 1) ∧
    ∀ a ∈ hostAddresses (.write 0xFFF 1), a.toNat < (hosting usbState (.write 0xFFF 1)).params.memSize :=
  ⟨hosting_inv usbState_inv _, rfl, fun a ha => by rw [List.mem_singleton.mp ha]; decide⟩

/-- A packet that succeeds and one that fails. -/
theorem witness_EveryPacketRecordsOneCode :
    (∃ t, runPacket ⟨0x00000107, []⟩ usbState = .next t ∧ statusLast t.status = 0) ∧
    ∃ t, runPacket ⟨0x00000207, []⟩ usbState = .next t ∧ statusLast t.status = 3 :=
  ⟨ends_with (by decide +kernel), ends_with (by decide +kernel)⟩

theorem witness_FailedPacketChangesOnlyTheRecord :
    ∃ t, runPacket ⟨0x00000207, []⟩ usbState = .next t ∧ statusLast t.status = 3 := ends_with (by decide +kernel)

/-- A packet that fails after another failure. -/
theorem witness_SeenBitsAreSticky :
    ∃ t, step (hosting { usbState with status := 0x00020011 } (.submit ⟨0x00000207, []⟩)) = .next t ∧
      statusLast t.status = 3 ∧
      (statusSeen (hosting { usbState with status := 0x00020011 } (.submit ⟨0x00000207, []⟩)).status).getLsbD 1 =
        true ∧
      isReset (.submit ⟨0x00000207, []⟩) = false := by
  obtain ⟨t, h, hc⟩ := ends_with (o := step (hosting { usbState with status := 0x00020011 }
    (.submit ⟨0x00000207, []⟩))) (c := 3) (by decide +kernel)
  exact ⟨t, h, hc, by decide, rfl⟩

theorem witness_SeenZeroMeansNothingFailed :
    (after (step (hosting usbState (.submit ⟨0x00000107, []⟩)))).map (fun t => statusSeen t.status) = some 0 ∧
    isReset (.submit ⟨0x00000107, []⟩) = false ∧
    executedPacket (.submit ⟨0x00000107, []⟩) = some ⟨0x00000107, []⟩ := by decide +kernel

theorem witness_RecordDoesNotInfluencePackets :
    ∃ t, runPacket ⟨0x00000107, []⟩ usbState = .next t ∧ statusLast t.status = 0 := ends_with (by decide +kernel)

theorem witness_NoEngineIsReported :
    State.reset.eng = none ∧ isCfg (.tblrd 0) = false ∧ (∀ n v, Instr.tblrd 0 ≠ .refl n v) ∧
    (∃ t, exec (.cfg 8 false false 7 0 0) .reset = .next t ∧ statusLast t.status = 0) ∧
    ∃ t, exec (.refl 1 0) .reset = .next t ∧ statusLast t.status = 0 :=
  ⟨rfl, rfl, fun _ _ => Instr.noConfusion, ends_with (by decide +kernel), ends_with (by decide +kernel)⟩

/-- The last session that exists is 3, the first that does not is 4. -/
theorem witness_InvalidSessionIsReported :
    usbState.eng = some usb ∧ usbState.params.nsess ≤ (4 : SessionIndex).toNat ∧ usbState.session 3 = none ∧
    (3 : SessionIndex).toNat < usbState.params.nsess ∧
    ∃ t, exec (.snew 3) usbState = .next t ∧ statusLast t.status = 0 :=
  ⟨rfl, by decide, withEngine_session usb 0x1F 3, by decide, ends_with (by decide +kernel)⟩

/-- 73 bits of 9 bytes. -/
theorem witness_BitLengthOutOfRangeIsReported :
    usbState.eng = some usb ∧ 8 * ((9 : Word).toNat : Int) < sint64 73 ∧
    (1 : SessionIndex).toNat < usbState.params.nsess ∧ usbState.session 1 = some 0x1F :=
  ⟨rfl, by decide, by decide, usbState_session⟩

/-- One byte past the end, and a buffer that would wrap. -/
theorem witness_AccessFaultIsReported :
    usbState.eng = some usb ∧ usbState.params.memSize < (0xFF8 : Word).toNat + (9 : Word).toNat ∧
    usbState.params.memSize < (0xFFFFFFFFFFFFFFFF : Word).toNat + (2 : Word).toNat ∧
    sint64 72 ≤ 8 * ((9 : Word).toNat : Int) ∧ (1 : SessionIndex).toNat < usbState.params.nsess ∧
    usbState.session 1 = some 0x1F := ⟨rfl, by decide, by decide, by decide, by decide, usbState_session⟩

theorem witness_ReflReversesTheLowBits :
    (1 ≤ (1 : BitVec 7).toNat ∧ (1 : BitVec 7).toNat ≤ 64) ∧ 1 ≤ (64 : BitVec 7).toNat ∧ (64 : BitVec 7).toNat ≤ 64 := by
  decide

theorem witness_ReflOperandOutOfRange :
    (0 : BitVec 7).toNat = 0 ∧ 64 < (65 : BitVec 7).toNat ∧ 64 < (127 : BitVec 7).toNat := by decide

theorem witness_ReflectionProperties : (1 ≤ 1 ∧ 1 ≤ 64) ∧ 1 ≤ 64 ∧ 64 ≤ 64 := by decide

/-- Width 5 with every value at its largest, and width 64 with every operand all ones. -/
theorem witness_CfgBuildsTheEngine :
    (1 ≤ (5 : BitVec 7).toNat ∧ (5 : BitVec 7).toNat ≤ 64 ∧ (5 : BitVec 7).toNat ≤ State.reset.params.regBits.toNat ∧
      (0x1F : Word).toNat < 2 ^ (5 : BitVec 7).toNat) ∧
    1 ≤ (64 : BitVec 7).toNat ∧ (64 : BitVec 7).toNat ≤ 64 ∧ (64 : BitVec 7).toNat ≤ State.reset.params.regBits.toNat ∧
      (0xFFFFFFFFFFFFFFFF : Word).toNat < 2 ^ (64 : BitVec 7).toNat := by decide

/-- Each of the six grounds. -/
theorem witness_CfgRejectsBadParameters :
    (0 : BitVec 7).toNat = 0 ∧ 64 < (65 : BitVec 7).toNat ∧
    ({ State.reset with params := { Params.reference with regBits := .r8 } } : State).params.regBits.toNat <
      (9 : BitVec 7).toNat ∧
    2 ^ (8 : BitVec 7).toNat - 1 < (0x100 : Word).toNat := by decide

theorem witness_ConstructionIsDeterministic :
    (∃ t, exec (.cfg 8 false false 7 0 0) .reset = .next t ∧ statusLast t.status = 0) ∧
    (∃ t, exec (.cfg 8 false false 7 0 0) usbState = .next t ∧ statusLast t.status = 0) ∧
    ∃ t, exec (.cfg 8 false false 0x100 0 0) usbState = .next t ∧ statusLast t.status = 4 :=
  ⟨ends_with (by decide +kernel), ends_with (by decide +kernel), ends_with (by decide +kernel)⟩

/-- A CFG that changes the width, and a reset that removes the engine. -/
theorem witness_EngineChangesOnlyByCfg :
    (after (step (hosting usbState (.submit ⟨0x00008002, [7, 0, 0]⟩)))).map (fun t => t.eng.map (·.w)) =
      some (some 8) ∧
    usbState.eng.map (·.w) = some 5 ∧
    (after (step (hosting usbState .reset))).map (fun t => t.eng.isNone) = some true := by decide +kernel

theorem witness_TblrdReadsTheTable : usbState.Inv ∧ usbState.eng = some usb := ⟨usbState_inv, rfl⟩

theorem witness_TableProperties :
    ((0x14 : Word).toNat < 2 ^ 5 ∧ 1 ≤ 5 ∧ 5 ≤ 64) ∧ (0xFFFFFFFFFFFFFFFF : Word).toNat < 2 ^ 64 := by decide

theorem witness_TailUnitIsBitSerial :
    bbbUpdate usb 0x1F 0x31 1 = .ok 0x0F ∧ bbbUpdate usb 0x1F 0x31 8 = .ok 0x03 := by decide +kernel

theorem witness_TailUnitFaultsOutsideItsRange : (0 = 0 ∨ 8 < 0) ∧ (9 = 0 ∨ 8 < 9) := by decide

theorem witness_SplitByteContinues : (1 ≤ 1 ∧ 1 ≤ 7) ∧ 1 ≤ 7 ∧ 7 ≤ 7 := by decide

theorem witness_TableFoldAgreesWithTailUnit : usb.tbl = buildTable usb.rpoly ∧ xmodem.tbl = buildTable xmodem.rpoly :=
  ⟨rfl, rfl⟩

/-- Two bytes that agree on the first 3 bits, for each direction. -/
theorem witness_PartialByteDontCareBits :
    (usb.rin = true ∧ ∀ j < 3, (0x05 : Byte).getLsbD j = (0xFD : Byte).getLsbD j) ∧
    (xmodem.rin = false ∧ ∀ j < 8, 8 - 3 ≤ j → (0xA0 : Byte).getLsbD j = (0xBF : Byte).getLsbD j) := by decide

theorem witness_SnewOpensTheSession :
    usbState.eng = some usb ∧ (3 : SessionIndex).toNat < usbState.params.nsess := ⟨rfl, by decide⟩

/-- The buffer that ends at MEM_SIZE, and the empty buffer at MEM_SIZE. -/
theorem witness_UpdIsBitSerial :
    usbState.Inv ∧ usbState.eng = some usb ∧ usbState.session 1 = some 0x1F ∧
    (0xFF7 : Word).toNat + (9 : Word).toNat ≤ usbState.params.memSize ∧
    (0x1000 : Word).toNat + (0 : Word).toNat ≤ usbState.params.memSize :=
  ⟨usbState_inv, rfl, usbState_session, by decide, by decide⟩

/-- Bit lengths 0, all of the buffer, and negative. -/
theorem witness_UpdbIsBitSerial :
    xmodemState.Inv ∧ xmodemState.eng = some xmodem ∧ xmodemState.session 1 = some 0xC38C ∧
    sint64 0 ≤ 8 * ((9 : Word).toNat : Int) ∧ sint64 72 ≤ 8 * ((9 : Word).toNat : Int) ∧
    sint64 0xFFFFFFFFFFFFFFFF ≤ 8 * ((9 : Word).toNat : Int) ∧
    (0x100 : Word).toNat + (9 : Word).toNat ≤ xmodemState.params.memSize :=
  ⟨xmodemState_inv, rfl, xmodemState_session, by decide, by decide, by decide, by decide⟩

theorem witness_UpdbWholeBufferIsUpd :
    usbState.Inv ∧ usbState.eng = some usb ∧ usbState.session 1 = some 0x1F ∧
    (0x100 : Word).toNat + (9 : Word).toNat ≤ usbState.params.memSize ∧ sint64 0xFFFFFFFFFFFFFFFB < 0 ∧
    sint64 72 = 8 * ((9 : Word).toNat : Int) :=
  ⟨usbState_inv, rfl, usbState_session, by decide, by decide, by decide⟩

/-- One state for each value of ENG.ROUT. -/
theorem witness_ResAnswersTheResidue :
    (usbState.Inv ∧ usbState.eng = some usb ∧ usb.rout = true ∧ usbState.session 1 = some 0x1F) ∧
    xmodemState.Inv ∧ xmodemState.eng = some xmodem ∧ xmodem.rout = false ∧ xmodemState.session 1 = some 0xC38C :=
  ⟨⟨usbState_inv, rfl, rfl, usbState_session⟩, xmodemState_inv, rfl, rfl, xmodemState_session⟩

theorem witness_FinAnswersTheFinalCrc :
    (usbState.Inv ∧ usbState.eng = some usb ∧ usbState.session 1 = some 0x1F) ∧
    xmodemState.Inv ∧ xmodemState.eng = some xmodem ∧ xmodemState.session 1 = some 0xC38C :=
  ⟨⟨usbState_inv, rfl, usbState_session⟩, xmodemState_inv, rfl, xmodemState_session⟩

/-- The two chunks of spec/95_test_vectors.md P2, steps 3 and 4, the second byte written in between. -/
theorem witness_ChunksConcatenate :
    usbState.Inv ∧ usbState.eng = some usb ∧ usbState.session 1 = some 0x1F ∧
    ∃ t, exec (.updb 1 0x100 5 34) usbState = .next t ∧ statusLast t.status = 0 ∧
      ∃ u, exec (.updb 1 0x200 1 6) { t with dmem := digits 0x100 ++ [(0x200, 0x0D)] } = .next u ∧
        statusLast u.status = 0 := by
  refine ⟨usbState_inv, rfl, usbState_session, ?_⟩
  obtain ⟨t, ht, hc⟩ := ends_with (o := exec (.updb 1 0x100 5 34) usbState) (c := 0) (by decide +kernel)
  refine ⟨t, ht, hc, ends_with ?_⟩
  have key : ∀ o : Host.Outcome State Fault Refusal, o = .next t →
      (after o).bind (fun t => (statusOf (exec (.updb 1 0x200 1 6)
        { t with dmem := digits 0x100 ++ [(0x200, 0x0D)] })).map statusLast) = some 0 →
      (statusOf (exec (.updb 1 0x200 1 6) { t with dmem := digits 0x100 ++ [(0x200, 0x0D)] })).map statusLast =
        some 0 := by
    intro o ho h; subst ho; exact h
  exact key _ ht (by decide +kernel)

theorem witness_TwoPiecesEqualOne :
    usbState.Inv ∧ usbState.eng = some usb ∧ usbState.session 1 = some 0x1F ∧
    (0x100 : Word).toNat + (4 : Word).toNat + (5 : Word).toNat ≤ usbState.params.memSize ∧
    (0x100 : Word).toNat + (4 : Word).toNat < 2 ^ 64 ∧ (4 : Word).toNat + (5 : Word).toNat < 2 ^ 64 :=
  ⟨usbState_inv, rfl, usbState_session, by decide, by decide, by decide⟩

/-- A command on session 2, and a CFG. -/
theorem witness_OtherSessionsAreUntouched :
    (∃ t, exec (.snew 2) usbState = .next t ∧ statusLast t.status = 0) ∧ namedSession (.snew 2) ≠ some 1 ∧
    (∃ t, exec (.cfg 8 false false 7 0 0) usbState = .next t ∧ statusLast t.status = 0) ∧
    namedSession (.cfg 8 false false 7 0 0) ≠ some 1 :=
  ⟨ends_with (by decide +kernel), by decide, ends_with (by decide +kernel), by decide⟩

theorem witness_CalcIsBitSerial :
    usbState.Inv ∧ usbState.eng = some usb ∧ (0xFF7 : Word).toNat + (9 : Word).toNat ≤ usbState.params.memSize :=
  ⟨usbState_inv, rfl, by decide⟩

theorem witness_CalcbIsBitSerial :
    xmodemState.Inv ∧ xmodemState.eng = some xmodem ∧ sint64 35 ≤ 8 * ((5 : Word).toNat : Int) ∧
    (0x100 : Word).toNat + (5 : Word).toNat ≤ xmodemState.params.memSize :=
  ⟨xmodemState_inv, rfl, by decide, by decide⟩

theorem witness_OneShotEqualsSession :
    usbState.Inv ∧ usbState.eng = some usb ∧ (3 : SessionIndex).toNat < usbState.params.nsess ∧
    sint64 34 ≤ 8 * ((5 : Word).toNat : Int) ∧ (0x100 : Word).toNat + (5 : Word).toNat ≤ usbState.params.memSize :=
  ⟨usbState_inv, rfl, by decide, by decide, by decide⟩

theorem witness_CalcEqualsCalcbWholeBuffer :
    usbState.Inv ∧ usbState.eng = some usb ∧ (0x100 : Word).toNat + (9 : Word).toNat ≤ usbState.params.memSize ∧
    sint64 0xFFFFFFFFFFFFFFFB < 0 ∧ sint64 72 = 8 * ((9 : Word).toNat : Int) :=
  ⟨usbState_inv, rfl, by decide, by decide, by decide⟩

theorem witness_CommandsNeverWriteMemory :
    ∃ t, exec (.calcBytes 0x100 9) usbState = .next t ∧ statusLast t.status = 0 := ends_with (by decide +kernel)

/-- Byte 4 with its last 6 bits changed: the first 34 bits are the same. -/
theorem witness_UnusedBitsDoNotMatter :
    usbState.Inv ∧ usbState.eng = some usb ∧
    (({ usbState with dmem := (digits 0x100).write 0x104 0xFD } : State).messageBits usb.rin 0x100 5 (sint64 34) =
      usbState.messageBits usb.rin 0x100 5 (sint64 34)) ∧
    (∃ t, exec (.updb 1 0x100 5 34) usbState = .next t ∧ statusLast t.status = 0) ∧
    ∃ t, exec (.calcb 0x100 5 34) usbState = .next t ∧ statusLast t.status = 0 :=
  ⟨usbState_inv, rfl, by decide +kernel, ends_with (by decide +kernel), ends_with (by decide +kernel)⟩

theorem witness_RegBitsMattersOnlyToTheWidthCheck :
    (∃ t, exec (.fin 1) usbState = .next t ∧ statusLast t.status = 0) ∧ isCfg (.fin 1) = false ∧
    (∃ t, exec (.cfg 8 false false 7 0 0) usbState = .next t ∧ statusLast t.status = 0) ∧
    ∃ t, exec (.cfg 8 false false 7 0 0)
      { usbState with params := { usbState.params with regBits := .r8 } } = .next t ∧ statusLast t.status = 0 :=
  ⟨ends_with (by decide +kernel), rfl, ends_with (by decide +kernel), ends_with (by decide +kernel)⟩

theorem witness_HostReadHasNoSideEffect : ∀ reg : HostReg,
    (hosting usbState (.read reg)).nextOp = some (.read reg) := fun _ => rfl

theorem witness_HostWriteIsSeen :
    (hosting usbState (.write 0xFFF 0)).Inv ∧ (hosting usbState (.write 0xFFF 0)).nextOp = some (.write 0xFFF 0) ∧
    (0xFFF : Word).toNat < (hosting usbState (.write 0xFFF 0)).params.memSize :=
  ⟨hosting_inv usbState_inv _, rfl, by decide⟩

/-- A buffer command with one of its bytes written meanwhile. -/
theorem witness_RacedPacketRunsOnSomeMemory :
    (hosting usbState (.submitRace ⟨0x00000105, [0x100, 9]⟩ [(0x104, 0xAA)])).Inv ∧
    (hosting usbState (.submitRace ⟨0x00000105, [0x100, 9]⟩ [(0x104, 0xAA)])).nextOp =
      some (.submitRace ⟨0x00000105, [0x100, 9]⟩ [(0x104, 0xAA)]) ∧
    ∃ t, step (hosting usbState (.submitRace ⟨0x00000105, [0x100, 9]⟩ [(0x104, 0xAA)])) = .next t := by
  exact ⟨hosting_inv usbState_inv _, rfl, ⟨_, rfl⟩⟩

/-- NBITS 0, one bit over a byte boundary, and the largest. -/
theorem witness_PseudoInstructionsExpand :
    ((0 : Int) ≤ 0 ∧ (0 : Int) ≤ 8 * 0 ∧ 8 * (0 : Int) < 0 + 8) ∧
    ((0 : Int) ≤ 33 ∧ (33 : Int) ≤ 8 * 5 ∧ 8 * (5 : Int) < 33 + 8) ∧
    (assemble (.updbits 1 0x100 34)).isSome = true ∧ (assemble (.calcbits 0x100 34)).isSome = true ∧
    (assemble (.updall 1 0x100 9)).isSome = true := by decide

/-- Each command with its fields at their largest and smallest, H written out from R87's column "packet". -/
theorem witness_AssemblerEncodesWhatFitsAndRefusesTheRest :
    assemble (.refl 127 (2 ^ 64 - 1)) = some (.submit ⟨0x0007F001, [0xFFFFFFFFFFFFFFFF]⟩) ∧
    assemble (.cfg 127 1 1 0 (-1) (-2 ^ 63)) =
      some (.submit ⟨0x001FF002, [0, 0xFFFFFFFFFFFFFFFF, 0x8000000000000000]⟩) ∧
    assemble (.tblrd 255) = some (.submit ⟨0x000FF003, []⟩) ∧
    assemble (.snew 15) = some (.submit ⟨0x00000F04, []⟩) ∧
    assemble (.upd 15 0x100 13) = some (.submit ⟨0x00000F05, [0x100, 13]⟩) ∧
    assemble (.updb 15 0x100 5 (-2 ^ 63)) = some (.submit ⟨0x00000F06, [0x100, 5, 0x8000000000000000]⟩) ∧
    assemble (.fin 15) = some (.submit ⟨0x00000F07, []⟩) ∧ assemble (.res 0) = some (.submit ⟨0x00000008, []⟩) ∧
    assemble (.calcBytes 0x100 9) = some (.submit ⟨0x00000009, [0x100, 9]⟩) ∧
    assemble (.calcb 0x100 9 (2 ^ 63 - 1)) = some (.submit ⟨0x0000000A, [0x100, 9, 0x7FFFFFFFFFFFFFFF]⟩) := by decide

/-- A value just outside each field. -/
theorem test_assembler_refuses :
    assemble (.refl 128 0) = none ∧ assemble (.refl 8 (2 ^ 64)) = none ∧ assemble (.refl 8 (-2 ^ 63 - 1)) = none ∧
    assemble (.cfg 8 2 0 0 0 0) = none ∧ assemble (.cfg 8 0 2 0 0 0) = none ∧ assemble (.tblrd 256) = none ∧
    assemble (.upd 0 (-2 ^ 63 - 1) 0) = none ∧ assemble (.calcb 0 0 (2 ^ 63)) = none := by decide

/-- Two raced bytes of a buffer, the last of them the last of DMEM. -/
theorem witness_RacedBytesAreUnusedDraws :
    (hosting usbState (.submitRace ⟨0x00000105, [0xFF7, 9]⟩ [(0xFF8, 1), (0xFFF, 2)])).Inv ∧
    (hosting usbState (.submitRace ⟨0x00000105, [0xFF7, 9]⟩ [(0xFF8, 1), (0xFFF, 2)])).nextOp =
      some (.submitRace ⟨0x00000105, [0xFF7, 9]⟩ [(0xFF8, 1), (0xFFF, 2)]) ∧
    ∀ w ∈ [((0xFF8 : Word), (1 : Byte)), (0xFFF, 2)], w.1.toNat < usbState.params.memSize := by
  refine ⟨hosting_inv usbState_inv _, rfl, fun w hw => ?_⟩
  rcases List.mem_pair.mp hw with rfl | rfl <;> decide

end Sys2Proof.Tests
end

/-! ## The recording of a packet's code (spec/10_state.md R35, spec/60_exceptions.md R181, R191) -/

namespace Sys2Proof.Machine

/-- Bit j of `STATUS.LAST` (R35). -/
theorem getLsbD_statusLast (st : BitVec 32) (j : Nat) :
    (statusLast st).getLsbD j = (decide (j < 4) && st.getLsbD j) := by
  simp [statusLast]

@[simp] theorem statusLast_setLast (st : BitVec 32) (c : BitVec 4) : statusLast (setLast st c) = c := by
  apply BitVec.eq_of_getLsbD_eq
  intro j hj
  have hmask : (0xFFFFFFF0#32).getLsbD j = false := by interval_cases j <;> rfl
  rw [getLsbD_statusLast, setLast, BitVec.getLsbD_or, BitVec.getLsbD_and, hmask]
  simp [hj, show j < 32 by omega]

@[simp] theorem statusLast_setSeen (st : BitVec 32) (c : BitVec 4) : statusLast (setSeen st c) = statusLast st := by
  apply BitVec.eq_of_getLsbD_eq
  intro j hj
  unfold setSeen
  split
  · rfl
  · simp [getLsbD_statusLast, show j < 16 + c.toNat by omega]

@[simp] theorem statusLast_setEngv (st : BitVec 32) (v : Bool) : statusLast (setEngv st v) = statusLast st := by
  apply BitVec.eq_of_getLsbD_eq
  intro j hj
  have hmask : (0xFFFFFFEF#32).getLsbD j = true := by interval_cases j <;> rfl
  rw [getLsbD_statusLast, getLsbD_statusLast, setEngv, BitVec.getLsbD_or, BitVec.getLsbD_and, hmask]
  simp [hj]

/-- R191: `STATUS.LAST` holds the code recorded. -/
@[simp] theorem statusLast_recordStatus (st : BitVec 32) (c : ErrorCode) (v : Bool) :
    statusLast (recordStatus st c v) = c.code := by
  simp [recordStatus]

end Sys2Proof.Machine

/-! ## CFG in one equation (spec/41_construction.md R112 to R118) -/

namespace Sys2Proof.Machine

/-- R113, R114: the block rejects a CFG with these arguments. -/
def cfgIllegal (regBits : RegBits) (width : BitVec 7) (poly init xorout : Word) : Bool :=
  widthIllegal regBits width || (exceedsMask width poly || exceedsMask width init || exceedsMask width xorout)

/-- R115, R116: the engine an accepted CFG builds. No parameter of the implementation is among its inputs (R7). -/
def Engine.ofCfg (width : BitVec 7) (refin refout : Bool) (poly init xorout : Word) : Engine :=
  { w := width, rpoly := reflect poly width.toNat, rinit := reflect init width.toNat, xorout := xorout,
    rin := refin, rout := refout, tbl := buildTable (reflect poly width.toNat) }

/-- A width that R113 admits is one the reverser takes (R100). -/
theorem reflectUnit_of_legal_width {regBits : RegBits} {width : BitVec 7} (h : widthIllegal regBits width = false)
    (v : Word) : reflectUnit v width.toNat = .ok (reflect v width.toNat) := by
  simp only [widthIllegal, Bool.or_eq_false_iff, decide_eq_false_iff_not] at h
  exact reflectUnit_eq_ok.mpr ⟨by omega, rfl⟩

/-- CFG always completes: with `InvalidParameter` and nothing else changed (R118), or with the engine built and every
session closed (R115, R117). -/
theorem execCfg_eq (width : BitVec 7) (refin refout : Bool) (poly init xorout : Word) (s : State) :
    execCfg width refin refout poly init xorout s = .next
      (if cfgIllegal s.params.regBits width poly init xorout then
        s.complete .invalidParameter (Instr.cfg width refin refout poly init xorout).header
      else
        { s.closeSessions with eng := some (Engine.ofCfg width refin refout poly init xorout) }.complete .ok
          (Instr.cfg width refin refout poly init xorout).header) := by
  unfold execCfg cfgIllegal
  cases hw : widthIllegal s.params.regBits width with
  | true => simp
  | false =>
    cases hm : exceedsMask width poly || exceedsMask width init || exceedsMask width xorout with
    | true => simp
    | false => simp [reflectUnit_of_legal_width hw, Engine.ofCfg]

/-- What a CFG that ends with code 0 leaves (R115, R117). -/
theorem execCfg_accepted {width : BitVec 7} {refin refout : Bool} {poly init xorout : Word} {s t : State}
    (ht : execCfg width refin refout poly init xorout s = .next t) (hlast : statusLast t.status = 0) :
    t = { s.closeSessions with eng := some (Engine.ofCfg width refin refout poly init xorout) }.complete .ok
      (Instr.cfg width refin refout poly init xorout).header := by
  rw [execCfg_eq] at ht
  obtain rfl := Host.Outcome.next.inj ht
  split at hlast
  · simp [ErrorCode.code] at hlast
  · exact if_neg ‹_›

end Sys2Proof.Machine

/-! ## The same block built with another REG_BITS (spec/00_scope.md R7) -/

namespace Sys2Proof

/-- The parameters with another REG_BITS (R6). -/
abbrev Params.withRegBits (p : Params) (rb : RegBits) : Params := { p with regBits := rb }

end Sys2Proof

namespace Sys2Proof.Machine

/-- The state under other parameters of the implementation (R6). -/
def State.withParams (s : State) (p : Params) : State := { s with params := p }

/-- Completing a packet (R191) does not look at the parameters. -/
@[simp] theorem State.complete_withParams (s : State) (p : Params) (c : ErrorCode) (h : Header) :
    (s.withParams p).complete c h = (s.complete c h).withParams p := rfl

/-- A command whose body commutes with a change of the parameters commutes with it as a whole. -/
theorem command_withParams {h : Header} {s t : State} {p : Params} {body body' : Except Stop State}
    (hbody : body' = (fun u => u.withParams p) <$> body) (ht : command h s body = .next t) :
    command h (s.withParams p) body' = .next (t.withParams p) := by
  subst hbody
  rcases command_next ht with ⟨u, rfl, rfl⟩ | ⟨c, rfl, rfl⟩
  · exact congrArg Host.Outcome.next (u.complete_withParams p .ok h)
  · exact congrArg Host.Outcome.next (s.complete_withParams p c h)

/-- The computation CALC and CALCB share does not look at REG_BITS. -/
theorem oneShot_withRegBits (e : Engine) (addr len : Word) (bl : Int) (s : State) (rb : RegBits) :
    oneShot e addr len bl (s.withParams (s.params.withRegBits rb)) =
      (fun u => u.withParams (s.params.withRegBits rb)) <$> oneShot e addr len bl s := by
  simp only [oneShot, map_bind, map_pure]
  rfl

/-- R7: no command but CFG looks at REG_BITS. The checks, the datapath and DMEM are the same under both values, so
after moving the change of REG_BITS into each body the two bodies agree by computation. -/
theorem exec_withRegBits {i : Instr} {s t : State} (rb : RegBits) (hi : isCfg i = false)
    (ht : exec i s = .next t) :
    exec i (s.withParams (s.params.withRegBits rb)) = .next (t.withParams (s.params.withRegBits rb)) := by
  cases i with
  | cfg => simp [isCfg] at hi
  | refl | tblrd | snew | upd | updb | fin | res =>
    refine command_withParams ?_ ht
    simp only [map_bind, map_pure]
    rfl
  | calcBytes | calcb =>
    refine command_withParams ?_ ht
    simp only [map_bind, ← oneShot_withRegBits]
    rfl

/-- Settles O54: away from CFG by `exec_withRegBits`; an accepted CFG leaves the state of `execCfg_accepted`, in which
REG_BITS is only carried along. -/
theorem regBitsMattersOnlyToTheWidthCheck : Obligations.RegBitsMattersOnlyToTheWidthCheck := by
  intro i s t rb ht
  refine ⟨fun hi => exec_withRegBits rb hi ht, fun hi hlast t' ht' hlast' => ?_⟩
  cases i with
  | cfg width refin refout poly init xorout => rw [execCfg_accepted ht hlast, execCfg_accepted ht' hlast']; rfl
  | _ => simp [isCfg] at hi

end Sys2Proof.Machine

/-! ## Every bit of STATUS after the recording of a code (spec/10_state.md R35, spec/60_exceptions.md R191) -/

namespace Sys2Proof.Machine

/-- Bit j of STATUS after `STATUS.LAST <- c`. -/
theorem getLsbD_setLast (st : BitVec 32) (c : BitVec 4) (j : Nat) :
    (setLast st c).getLsbD j = if j < 4 then c.getLsbD j else st.getLsbD j := by
  have hmask : ∀ j < 32, (0xFFFFFFF0#32).getLsbD j = !decide (j < 4) := by decide
  by_cases h32 : j < 32
  · rw [setLast, BitVec.getLsbD_or, BitVec.getLsbD_and, hmask j h32, BitVec.getLsbD_setWidth, decide_eq_true h32]
    by_cases h4 : j < 4
    · simp [h4]
    · simp [h4, BitVec.getLsbD_of_ge c j (Nat.le_of_not_lt h4)]
  · rw [BitVec.getLsbD_of_ge _ j (Nat.le_of_not_lt h32), BitVec.getLsbD_of_ge st j (Nat.le_of_not_lt h32),
      if_neg (by omega)]

/-- Bit j of STATUS after `STATUS[16 + c] <- 1` for a c other than 0. -/
theorem getLsbD_setSeen (st : BitVec 32) (c : BitVec 4) (j : Nat) :
    (setSeen st c).getLsbD j = (st.getLsbD j || decide (c ≠ 0 ∧ j = 16 + c.toNat)) := by
  unfold setSeen
  split
  next h0 => simp [h0]
  next h0 =>
    have hc := c.isLt
    have hbit : (1#32 <<< (16 + c.toNat)).getLsbD j = decide (j = 16 + c.toNat) := by
      rw [← BitVec.twoPow_eq, BitVec.getLsbD_twoPow]
      rcases eq_or_ne j (16 + c.toNat) with rfl | hj
      · simpa using (by omega : 16 + c.toNat < 32)
      · simp [hj, hj.symm]
    rw [BitVec.getLsbD_or, hbit, decide_eq_decide.mpr (and_iff_right h0).symm]

/-- Bit j of STATUS after `STATUS.ENGV <- v`. -/
theorem getLsbD_setEngv (st : BitVec 32) (v : Bool) (j : Nat) :
    (setEngv st v).getLsbD j = if j = 4 then v else st.getLsbD j := by
  have hmask : ∀ j < 32, (0xFFFFFFEF#32).getLsbD j = !decide (j = 4) := by decide
  have hbit : ∀ v, ∀ j < 32, ((BitVec.ofBool v).setWidth 32 <<< 4).getLsbD j = (decide (j = 4) && v) := by decide
  by_cases h32 : j < 32
  · rw [setEngv, BitVec.getLsbD_or, BitVec.getLsbD_and, hmask j h32, hbit v j h32]
    by_cases h4 : j = 4 <;> simp [h4]
  · rw [BitVec.getLsbD_of_ge _ j (Nat.le_of_not_lt h32), BitVec.getLsbD_of_ge st j (Nat.le_of_not_lt h32),
      if_neg (by omega)]

/-- R191: STATUS bit by bit after the recording of a code. -/
theorem getLsbD_recordStatus (st : BitVec 32) (c : ErrorCode) (v : Bool) (j : Nat) :
    (recordStatus st c v).getLsbD j =
      if j = 4 then v else if j < 4 then c.code.getLsbD j
      else (st.getLsbD j || decide (c.code ≠ 0 ∧ j = 16 + c.code.toNat)) := by
  rw [recordStatus, getLsbD_setEngv, getLsbD_setSeen, getLsbD_setLast]
  by_cases h4 : j < 4
  · simp [h4, show j ≠ 16 + c.code.toNat by omega]
  · simp [h4]

/-- R191: `STATUS.ENGV` holds ENG.V. -/
@[simp] theorem statusEngv_recordStatus (st : BitVec 32) (c : ErrorCode) (v : Bool) :
    statusEngv (recordStatus st c v) = v := by
  rw [statusEngv, getLsbD_recordStatus, if_pos rfl]

/-- R35: the recording of a code clears no SEEN bit. -/
theorem statusSeen_recordStatus {st : BitVec 32} {k : Nat} (hk : (statusSeen st).getLsbD k = true) (c : ErrorCode)
    (v : Bool) : (statusSeen (recordStatus st c v)).getLsbD k = true := by
  simp only [statusSeen, BitVec.getLsbD_extractLsb', Bool.and_eq_true] at hk ⊢
  rw [getLsbD_recordStatus, if_neg (by omega), if_neg (by omega), hk.2]
  exact ⟨hk.1, Bool.true_or _⟩

/-- R181: the codes are 0 to 7. -/
theorem ErrorCode.code_le (c : ErrorCode) : c.code.toNat ≤ 7 := by cases c <;> decide

/-- R35, R191: the recording of a code keeps STATUS[16] and the reserved bits. -/
theorem getLsbD_recordStatus_reserved (st : BitVec 32) (c : ErrorCode) (v : Bool) {j : Nat} (h4 : 4 < j)
    (hj : j ≤ 16 ∨ 24 ≤ j) : (recordStatus st c v).getLsbD j = st.getLsbD j := by
  have hle := c.code_le
  have hne : ¬ (c.code ≠ 0 ∧ j = 16 + c.code.toNat) := by
    rintro ⟨h0, rfl⟩
    have : c.code.toNat ≠ 0 := fun hz => h0 (BitVec.eq_of_toNat_eq hz)
    omega
  rw [getLsbD_recordStatus, if_neg (by omega), if_neg (by omega), decide_eq_false hne, Bool.or_false]

/-- R35: with STATUS[16] and the reserved bits 0 they stay 0. -/
theorem recordStatus_reserved {st : BitVec 32} (h : st &&& 0xFF01FFE0#32 = 0) (c : ErrorCode) (v : Bool) :
    recordStatus st c v &&& 0xFF01FFE0#32 = 0 := by
  have hmask : ∀ j < 32, (0xFF01FFE0#32).getLsbD j = true → 4 < j ∧ (j ≤ 16 ∨ 24 ≤ j) := by decide
  rw [← h]
  apply BitVec.eq_of_getLsbD_eq
  intro j hj
  rw [BitVec.getLsbD_and, BitVec.getLsbD_and]
  cases hm : (0xFF01FFE0#32).getLsbD j with
  | false => rw [Bool.and_false, Bool.and_false]
  | true => rw [getLsbD_recordStatus_reserved st c v (hmask j hj hm).1 (hmask j hj hm).2]

end Sys2Proof.Machine

/-! ## What a command, a packet and a host operation can do -/

namespace Sys2Proof.Machine

/-- What CALC and CALCB leave when they succeed: RESULT, and the scratch register without a value (R33). -/
theorem oneShot_eq_ok {e : Engine} {addr len : Word} {bl : Int} {s u : State} (h : oneShot e addr len bl s = .ok u) :
    ∃ v, u = { s.dropOne with result := v } := by
  simp only [oneShot, State.readOne_writeOne, bind_ok, bind_eq_ok, pure_eq_ok, Except.ok.injEq] at h
  obtain ⟨_, -, v, -, rfl⟩ := h
  exact ⟨v, rfl⟩

/-- The effects of a command whose checks pass, before the recording of its code. -/
inductive Effect (s : State) : Instr → State → Prop
  /-- REFL, TBLRD, FIN, RES. -/
  | result {i : Instr} (v : Word) : Effect s i { s with result := v }
  /-- CALC, CALCB. -/
  | oneShot {i : Instr} (v : Word) : Effect s i { s.dropOne with result := v }
  /-- SNEW. -/
  | opened {i : Instr} (e : Engine) (sid : SessionIndex) (heng : s.eng = some e) (hsid : sid.toNat < s.params.nsess) :
      Effect s i (s.setSession sid e.rinit)
  /-- UPD, UPDB. -/
  | updated {i : Instr} (e : Engine) (sid : SessionIndex) (r r' : Word) {addr len : Word} {bl : Int}
      (heng : s.eng = some e) (hsid : sid.toNat < s.params.nsess) (hr : s.session sid = some r)
      (hr' : tableUpdate e s r addr len bl = .ok r') : Effect s i (s.setSession sid r')
  /-- CFG. -/
  | constructed {width : BitVec 7} {refin refout : Bool} {poly init xorout : Word}
      (hlegal : cfgIllegal s.params.regBits width poly init xorout = false) :
      Effect s (.cfg width refin refout poly init xorout)
        { s.closeSessions with eng := some (Engine.ofCfg width refin refout poly init xorout) }

/-- A command has the effects of its body, recorded with code 0, or nothing but the recording of a code (R185, R191). -/
theorem command_effect {i : Instr} {s t : State} {body : Except Stop State} (h : command i.header s body = .next t)
    (hbody : ∀ u, body = .ok u → Effect s i u) :
    (∃ u, Effect s i u ∧ t = u.complete .ok i.header) ∨ ∃ c, t = s.complete c i.header := by
  obtain ⟨u, hu, ht⟩ | ⟨c, -, ht⟩ := command_next h
  · exact .inl ⟨u, hbody u hu, ht⟩
  · exact .inr ⟨c, ht⟩

/-- What one command can do: each body with its checks taken apart. -/
theorem exec_next {i : Instr} {s t : State} (h : exec i s = .next t) :
    (∃ u, Effect s i u ∧ t = u.complete .ok i.header) ∨ ∃ c, t = s.complete c i.header := by
  cases i with
  | cfg width refin refout poly init xorout =>
    simp only [exec, execCfg_eq, Host.Outcome.next.injEq] at h
    split at h
    · exact .inr ⟨_, h.symm⟩
    · exact .inl ⟨_, .constructed (Bool.eq_false_of_not_eq_true ‹_›), h.symm⟩
  | refl =>
    refine command_effect h fun u hu => ?_
    simp only [bind_eq_ok, pure_eq_ok, Except.ok.injEq] at hu
    obtain ⟨-, -, v, -, rfl⟩ := hu
    exact .result v
  | tblrd =>
    refine command_effect h fun u hu => ?_
    simp only [bind_eq_ok, pure_eq_ok, Except.ok.injEq] at hu
    obtain ⟨e, -, rfl⟩ := hu
    exact .result _
  | snew =>
    refine command_effect h fun u hu => ?_
    simp only [bind_eq_ok, requireEngine_eq_ok, raiseIf_eq_ok, pure_eq_ok, Except.ok.injEq] at hu
    obtain ⟨e, heng, -, hsid, rfl⟩ := hu
    exact .opened e _ heng (Nat.lt_of_not_le (of_decide_eq_false hsid))
  | upd =>
    refine command_effect h fun u hu => ?_
    simp only [bind_eq_ok, requireEngine_eq_ok, requireSession_eq_ok, pure_eq_ok, Except.ok.injEq] at hu
    obtain ⟨e, heng, r, ⟨hsid, hr⟩, -, -, r', hr', rfl⟩ := hu
    exact .updated e _ r r' heng hsid hr hr'
  | updb =>
    refine command_effect h fun u hu => ?_
    simp only [bind_eq_ok, requireEngine_eq_ok, requireSession_eq_ok, pure_eq_ok, Except.ok.injEq] at hu
    obtain ⟨e, heng, r, ⟨hsid, hr⟩, -, -, -, -, r', hr', rfl⟩ := hu
    exact .updated e _ r r' heng hsid hr hr'
  | fin | res =>
    refine command_effect h fun u hu => ?_
    simp only [bind_eq_ok, pure_eq_ok, Except.ok.injEq] at hu
    obtain ⟨e, -, r, -, v, -, rfl⟩ := hu
    exact .result v
  | calcBytes =>
    refine command_effect h fun u hu => ?_
    simp only [bind_eq_ok] at hu
    obtain ⟨e, -, -, -, hu⟩ := hu
    obtain ⟨v, rfl⟩ := oneShot_eq_ok hu
    exact .oneShot v
  | calcb =>
    refine command_effect h fun u hu => ?_
    simp only [bind_eq_ok] at hu
    obtain ⟨e, -, -, -, -, -, hu⟩ := hu
    obtain ⟨v, rfl⟩ := oneShot_eq_ok hu
    exact .oneShot v

/-- What one packet can do (R78, R86): it decodes and its command runs, or it ends with `IllegalCommand`. -/
theorem runPacket_next {p : Packet} {s t : State} (h : runPacket p s = .next t) :
    (∃ i, decode p = .ok i ∧ exec i s = .next t) ∨ t = s.complete .illegalCommand p.header := by
  unfold runPacket at h
  split at h
  · exact .inl ⟨_, ‹_›, h⟩
  · exact .inr (Host.Outcome.next.inj h).symm

/-- R7, R51: no command changes the parameters or DMEM; STATUS is left to the recording. -/
theorem Effect.frame {s u : State} {i : Instr} (h : Effect s i u) :
    u.params = s.params ∧ u.dmem = s.dmem ∧ u.status = s.status := by
  cases h <;> exact ⟨rfl, rfl, rfl⟩

/-- Every packet that runs to completion is recorded over the STATUS from before, and leaves the parameters and DMEM
(R7, R51, R191). -/
theorem runPacket_frame {p : Packet} {s t : State} (h : runPacket p s = .next t) :
    t.params = s.params ∧ t.dmem = s.dmem ∧ ∃ c, t.status = recordStatus s.status c t.engV := by
  obtain ⟨i, -, hx⟩ | rfl := runPacket_next h
  · obtain ⟨u, hu, rfl⟩ | ⟨c, rfl⟩ := exec_next hx
    · obtain ⟨hparams, hdmem, hstatus⟩ := hu.frame
      exact ⟨hparams, hdmem, .ok, by rw [State.complete_status, hstatus, State.complete_engV]⟩
    · exact ⟨rfl, rfl, c, rfl⟩
  · exact ⟨rfl, rfl, .illegalCommand, rfl⟩

/-- The memory m is DMEM of s after writes to addresses that exist (R51). -/
def State.HostWrites (s : State) (m : Memory) : Prop :=
  ∃ ws : List (Word × Byte), (∀ w ∈ ws, w.1.toNat < s.params.memSize) ∧ m = s.dmem.writes ws

/-- No write at all. -/
theorem State.hostWrites_dmem (s : State) : s.HostWrites s.dmem := ⟨[], nofun, rfl⟩

/-- What performing one operation of the host can answer. -/
inductive Performed (s : State) (op : HostOp) : State → Prop
  /-- R210: the block enters the reset state. -/
  | reset (hop : isReset op = true) : Performed s op s.enterReset
  /-- R37, R51: a read or a write by the host leaves the block's registers as they are. -/
  | host {m : Memory} (hm : s.HostWrites m) (seen : List Observation) :
      Performed s op { s with dmem := m, seen := seen }
  /-- R78, R215: a packet runs on the memory it sees and leaves the memory the host has written. -/
  | packet {p : Packet} {view settled : Memory} {u : State} (draws : Nat) (hop : executedPacket op = some p)
      (hview : s.HostWrites view) (hsettled : s.HostWrites settled)
      (hu : runPacket p { s with dmem := view, draws := draws } = .next u) :
      Performed s op { u with dmem := settled }

/-- A raced packet that completes (R215). -/
theorem runRace_next {p : Packet} {writes : List (Word × Byte)} {s t : State} (h : runRace p writes s = .next t) :
    (∀ w ∈ writes, w.1.toNat < s.params.memSize) ∧
      ∃ u, runPacket p (s.raceView writes) = .next u ∧ t = { u with dmem := s.dmem.writes writes } := by
  unfold runRace settleRace at h
  split at h
  next hall =>
    have haddr : ∀ w ∈ writes, w.1.toNat < s.params.memSize := fun w hw =>
      of_decide_eq_true (List.all_eq_true.mp hall w hw)
    split at h
    · exact ⟨haddr, _, ‹_›, (Host.Outcome.next.inj h).symm⟩
    · cases h
    · cases h
  next => cases h

/-- R215: the memory a raced packet sees differs only at addresses that exist. -/
theorem hostWrites_drawBytes {s : State} {writes : List (Word × Byte)}
    (h : ∀ w ∈ writes, w.1.toNat < s.params.memSize) (n : Nat) : s.HostWrites (s.dmem.writes (drawBytes n writes)) := by
  refine ⟨_, fun w hw => ?_, rfl⟩
  have hmem := List.mem_map_of_mem (f := Prod.fst) hw
  rw [drawBytes_addresses] at hmem
  obtain ⟨w', hw', hfst⟩ := List.mem_map.mp hmem
  exact hfst ▸ h w' hw'

/-- Performing one operation of the host, operation by operation. -/
theorem perform_next {op : HostOp} {s t : State} (h : perform op s = .next t) : Performed s op t := by
  cases op with
  | submit p =>
    have hdmem : t = { t with dmem := s.dmem } := by rw [← (runPacket_frame h).2.1]
    rw [hdmem]
    exact .packet s.draws rfl s.hostWrites_dmem s.hostWrites_dmem h
  | read reg =>
    obtain rfl := Host.Outcome.next.inj h
    exact .host s.hostWrites_dmem _
  | write a b =>
    simp only [perform, State.hostWrite] at h
    split at h
    next ha =>
      obtain rfl := Host.Outcome.next.inj h
      exact .host ⟨[(a, b)], by simpa [State.addressExists] using ha, rfl⟩ s.seen
    next => cases h
  | readMem a =>
    simp only [perform, State.hostReadMem] at h
    split at h
    · obtain rfl := Host.Outcome.next.inj h
      exact .host s.hostWrites_dmem _
    · cases h
  | reset =>
    obtain rfl := Host.Outcome.next.inj h
    exact .reset rfl
  | submitReset p =>
    obtain rfl := Host.Outcome.next.inj h
    exact .reset rfl
  | submitRace p writes =>
    obtain ⟨haddr, u, hu, rfl⟩ := runRace_next h
    exact .packet _ rfl (hostWrites_drawBytes haddr s.draws) ⟨writes, haddr, rfl⟩ hu

/-- What one step can do: nothing, with no operation left, or one operation of the host. -/
theorem step_next {s t : State} (h : step s = .next t) :
    (s.nextOp = none ∧ t = s) ∨ ∃ op, s.nextOp = some op ∧ Performed s.advance op t := by
  obtain ⟨hop, hs⟩ | ⟨op, hop, hs⟩ := step_cases s
  · exact .inl ⟨hop, (Host.Outcome.next.inj (hs.symm.trans h)).symm⟩
  · exact .inr ⟨op, hop, perform_next (hs.symm.trans h)⟩

end Sys2Proof.Machine

/-! ## The step, the host's reads, SEEN and the engine (spec/10_state.md R21, R35, R37, R39) -/

namespace Sys2Proof.Machine

/-- Settles O6: the step performs the submission, which decodes to the command. -/
theorem stepRunsTheDecodedPacket : Obligations.StepRunsTheDecodedPacket := by
  intro s p i hop hdec
  simp only [step, hop, perform, runPacket, hdec, State.advance]

/-- Settles O8: with no operation left the step is the identity. -/
theorem idleStepChangesNothing : Obligations.IdleStepChangesNothing := by
  intro s hop
  simp only [step, hop]

/-- Settles O55: the observation is what the read port returns (R37); the host keeps it (log entry 14). -/
theorem hostReadHasNoSideEffect : Obligations.HostReadHasNoSideEffect := by
  intro s reg hop
  refine ⟨s.readPort reg, ?_, ?_⟩
  · simp only [step, hop, perform]
    cases reg <;> rfl
  · cases reg <;> simp [State.readPort]

/-- Settles O18: a packet records its code over the STATUS from before, which clears no SEEN bit; every other operation
but reset leaves STATUS. -/
theorem seenBitsAreSticky : Obligations.SeenBitsAreSticky := by
  intro s t k ht hnoreset hk
  obtain ⟨-, rfl⟩ | ⟨op, hop, hperf⟩ := step_next ht
  · exact hk
  · cases hperf with
    | reset hreset => simp [hnoreset op hop] at hreset
    | host => exact hk
    | packet _ _ _ _ hu =>
      obtain ⟨-, -, c, hstatus⟩ := runPacket_frame hu
      exact hstatus ▸ statusSeen_recordStatus hk c _

/-- R39: a packet that changes the engine is a CFG that ends with code 0. -/
theorem runPacket_engine_changed {p : Packet} {s t : State} (h : runPacket p s = .next t) (hne : t.eng ≠ s.eng) :
    ∃ i, decode p = .ok i ∧ isCfg i = true ∧ statusLast t.status = 0 := by
  obtain ⟨i, hdec, hx⟩ | rfl := runPacket_next h
  · obtain ⟨u, hu, rfl⟩ | ⟨c, rfl⟩ := exec_next hx
    · cases hu with
      | constructed => exact ⟨_, hdec, rfl, statusLast_recordStatus _ _ _⟩
      | result | oneShot | opened | updated => exact absurd rfl hne
    · exact absurd rfl hne
  · exact absurd rfl hne

/-- Settles O31: of the operations that assert no reset only an executed packet reaches the engine. -/
theorem engineChangesOnlyByCfg : Obligations.EngineChangesOnlyByCfg := by
  intro s t ht hne
  obtain ⟨-, rfl⟩ | ⟨op, hop, hperf⟩ := step_next ht
  · exact absurd rfl hne
  · refine ⟨op, hop, ?_⟩
    cases hperf with
    | reset hreset => exact .inl hreset
    | host => exact absurd rfl hne
    | packet _ hp _ _ hu =>
      obtain ⟨i, hdec, hcfg, hlast⟩ := runPacket_engine_changed hu hne
      exact .inr ⟨_, i, hp, hdec, hcfg, hlast⟩

end Sys2Proof.Machine

/-! ## Registers stay below 2^W (spec/42_bit_serial.md R132, spec/43_table_update.md R142) -/

namespace Sys2Proof.Machine

/-- R132, for a register one bit wider: the shift of a bit step takes the top bit out. -/
theorem bitStep_lt {p r : Word} {n : Nat} (hp : p.toNat < 2 ^ n) (hr : r.toNat < 2 ^ (n + 1)) :
    (bitStep p r).toNat < 2 ^ n := by
  have hshift : (r >>> 1).toNat < 2 ^ n := by
    rw [BitVec.toNat_ushiftRight, Nat.shiftRight_eq_div_pow]
    omega
  have hpoly : (if r.getLsbD 0 then p else 0).toNat < 2 ^ n := by
    split
    · exact hp
    · exact Nat.two_pow_pos n
  rw [bitStep, BitVec.toNat_xor]
  exact Nat.xor_lt_two_pow hshift hpoly

/-- k bit steps bring a register of w + k bits below 2^w. -/
theorem bitSteps_lt {p : Word} {w k : Nat} {r : Word} (hp : p.toNat < 2 ^ w) (hr : r.toNat < 2 ^ (w + k)) :
    (bitSteps p k r).toNat < 2 ^ w := by
  induction k generalizing r with
  | zero => exact hr
  | succ k ih => exact ih (bitStep_lt (hp.trans_le (Nat.pow_le_pow_right (by decide) (Nat.le_add_right w k))) hr)

/-- R116: a table entry is below 2^W, also for W below 8: the index has 8 bits. -/
theorem tableEntry_lt {p : Word} {w : Nat} (hp : p.toNat < 2 ^ w) (i : Byte) : (tableEntry p i).toNat < 2 ^ w := by
  refine bitSteps_lt hp ?_
  calc (i.setWidth 64).toNat = i.toNat := by rw [BitVec.toNat_setWidth]; omega
    _ < 2 ^ 8 := i.isLt
    _ ≤ 2 ^ (w + 8) := Nat.pow_le_pow_right (by decide) (Nat.le_add_left 8 w)

/-- R10: a value under `mask(k)` is below 2^k. -/
theorem and_mask_lt (v : Word) (k : Nat) : (v &&& mask k).toNat < 2 ^ k := by
  refine Nat.lt_pow_two_of_testBit _ fun i hi => ?_
  rw [← BitVec.getLsbD, BitVec.getLsbD_and, getLsbD_mask, decide_eq_false (Nat.not_lt.mpr hi), Bool.and_false,
    Bool.and_false]

/-- R100: a value reflected over n bits is below 2^n. -/
theorem reflect_lt (v : Word) (n : Nat) : (reflect v n).toNat < 2 ^ n := by
  refine Nat.lt_pow_two_of_testBit _ fun i hi => ?_
  rw [← BitVec.getLsbD, getLsbD_reflect, decide_eq_false (Nat.not_lt.mpr hi), Bool.false_and, Bool.and_false]

/-- The tail unit keeps a register below 2^W. -/
theorem bbbUpdate_lt {e : Engine} {r v : Word} {b : Byte} {k w : Nat} (hp : e.rpoly.toNat < 2 ^ w)
    (hr : r.toNat < 2 ^ w) (h : bbbUpdate e r b k = .ok v) : v.toNat < 2 ^ w := by
  obtain ⟨-, rfl⟩ := bbbUpdate_eq_ok.mp h
  refine bitSteps_lt hp ?_
  rw [BitVec.toNat_xor]
  exact Nat.xor_lt_two_pow (hr.trans_le (Nat.pow_le_pow_right (by decide) (Nat.le_add_right w k)))
    ((and_mask_lt _ k).trans_le (Nat.pow_le_pow_right (by decide) (Nat.le_add_left k w)))

/-- R142: the fold of one byte keeps a register below 2^W. -/
theorem foldByte_lt {e : Engine} {w : Nat} (htbl : ∀ i : Byte, (e.entry i).toNat < 2 ^ w) {r : Word}
    (hr : r.toNat < 2 ^ w) (b : Byte) : (foldByte e r b).toNat < 2 ^ w := by
  rw [foldByte, BitVec.toNat_xor]
  refine Nat.xor_lt_two_pow (htbl _) ?_
  rw [BitVec.toNat_ushiftRight]
  exact (Nat.shiftRight_le _ _).trans_lt hr

/-- The fold of whole bytes keeps a register below 2^W. -/
theorem foldl_foldByte_lt {e : Engine} {w : Nat} (htbl : ∀ i : Byte, (e.entry i).toNat < 2 ^ w) (bs : List Byte)
    {r : Word} (hr : r.toNat < 2 ^ w) : (bs.foldl (foldByte e) r).toNat < 2 ^ w := by
  induction bs generalizing r with
  | nil => exact hr
  | cons b bs ih => exact ih (foldByte_lt htbl hr b)

/-- R142: the bulk unit keeps a register below 2^W. -/
theorem tableUpdate_lt {e : Engine} {p : Params} (he : e.Inv p) {s : State} {r r' addr len : Word} {bl : Int}
    (hr : r.toNat < 2 ^ e.w.toNat) (h : tableUpdate e s r addr len bl = .ok r') : r'.toNat < 2 ^ e.w.toNat := by
  obtain ⟨-, ⟨hpoly, -, -⟩, htbl, -⟩ := he
  obtain ⟨buf, -, htail⟩ := bind_eq_ok.mp h
  have hbulk := foldl_foldByte_lt htbl (buf.take (decodeBitLength bl len.toNat).1) hr
  simp only at htail
  split at htail
  · exact bbbUpdate_lt hpoly hbulk htail
  · obtain rfl := Except.ok.inj htail
    exact hbulk

/-- R116: a table entry of the engine an accepted CFG builds. -/
theorem Engine.entry_ofCfg (width : BitVec 7) (refin refout : Bool) (poly init xorout : Word) (i : Byte) :
    (Engine.ofCfg width refin refout poly init xorout).entry i = tableEntry (reflect poly width.toNat) i :=
  entry_of_buildTable (e := Engine.ofCfg width refin refout poly init xorout) rfl i

/-- R113, R114, R116: the engine an accepted CFG builds meets the invariant. -/
theorem Engine.ofCfg_inv {p : Params} {width : BitVec 7} {poly init xorout : Word} (refin refout : Bool)
    (h : cfgIllegal p.regBits width poly init xorout = false) :
    (Engine.ofCfg width refin refout poly init xorout).Inv p := by
  simp only [cfgIllegal, widthIllegal, exceedsMask, Bool.or_eq_false_iff, decide_eq_false_iff_not] at h
  obtain ⟨⟨⟨hzero, h64⟩, hreg⟩, -, hxorout⟩ := h
  refine ⟨⟨Nat.one_le_iff_ne_zero.mpr hzero, Nat.le_of_not_lt h64, Nat.le_of_not_lt hreg⟩,
    ⟨reflect_lt poly width.toNat, reflect_lt init width.toNat, ?_⟩, fun i => ?_, rfl⟩
  · exact (Nat.le_of_not_lt hxorout).trans_lt (Nat.sub_lt (Nat.two_pow_pos width.toNat) Nat.one_pos)
  · rw [Engine.entry_ofCfg]
    exact tableEntry_lt (reflect_lt poly width.toNat) i

end Sys2Proof.Machine

/-! ## The invariant (spec/10_state.md R38) -/

namespace Sys2Proof.Machine

/-- Reset meets the invariant, whatever stands in the parameters and DMEM, which it leaves (R211): without an engine and
a session there is nothing else to hold. -/
theorem State.enterReset_inv {s : State} (hparams : s.params.Legal) (hwf : Memory.wf s.dmem)
    (hwithin : Memory.within s.dmem s.params.memSize) : s.enterReset.Inv where
  params_legal := hparams
  engine := nofun
  session := fun sid r hr => by simp at hr
  status_engv := show statusEngv 0 = false by decide
  status_last := show (statusLast 0).toNat ≤ 7 by decide
  status_reserved := show 0#32 &&& 0xFF01FFE0#32 = 0 by decide
  scratch := rfl
  dmem_wf := hwf
  dmem_within := hwithin

/-- Settles O12: the reset state is the one that reset leaves of itself, with the reference values of R6. -/
theorem resetMeetsTheInvariant : Obligations.ResetMeetsTheInvariant :=
  State.enterReset_inv (s := State.reset) (show Params.reference.Legal by decide) reset_dmem_wf nofun

/-- The invariant says nothing of RESULT, ERRHDR and the host's side, and of DMEM only that it is canonical and inside
MEM_SIZE. -/
theorem State.Inv.frame {s : State} (h : s.Inv) {m : Memory} (hwf : Memory.wf m)
    (hwithin : Memory.within m s.params.memSize) (result : Word) (errhdr : Header) (host : List HostOp) (pos : Nat)
    (seen : List Observation) (draws : Nat) :
    State.Inv { s with
      result := result, errhdr := errhdr, dmem := m, host := host, pos := pos, seen := seen, draws := draws } :=
  ⟨h.params_legal, h.engine, h.session, h.status_engv, h.status_last, h.status_reserved, h.scratch, hwf, hwithin⟩

/-- The recording of a code restores the invariant after a command's effects: it sets STATUS.ENGV and LAST, so the
engine and the sessions are all that is to be shown of u. -/
theorem State.Inv.complete {s u : State} (hs : s.Inv)
    (hframe : u.params = s.params ∧ u.dmem = s.dmem ∧ u.status = s.status) (hone : u.oneReg = none)
    (heng : ∀ e ∈ u.eng, e.Inv s.params)
    (hsess : ∀ sid : SessionIndex, ∀ r ∈ u.session sid,
      sid.toNat < s.params.nsess ∧ ∃ e ∈ u.eng, r.toNat < 2 ^ e.w.toNat)
    (c : ErrorCode) (hdr : Header) : (u.complete c hdr).Inv := by
  obtain ⟨hparams, hdmem, hstatus⟩ := hframe
  exact {
    params_legal := by rw [State.complete_params, hparams]; exact hs.params_legal
    engine := by rw [State.complete_params, hparams]; exact heng
    session := by rw [State.complete_params, hparams]; exact hsess
    status_engv := statusEngv_recordStatus _ _ _
    status_last := by rw [State.complete_status, statusLast_recordStatus]; exact c.code_le
    status_reserved := by
      rw [State.complete_status, hstatus]
      exact recordStatus_reserved hs.status_reserved c _
    scratch := hone
    dmem_wf := by rw [State.complete_dmem, hdmem]; exact hs.dmem_wf
    dmem_within := by rw [State.complete_dmem, State.complete_params, hdmem, hparams]; exact hs.dmem_within }

/-- A session register below 2^W written to an existing session keeps R38 item 2. -/
theorem State.Inv.session_setSession {s : State} (hs : s.Inv) {e : Engine} {sid : SessionIndex} {v : Word}
    (heng : s.eng = some e) (hsid : sid.toNat < s.params.nsess) (hv : v.toNat < 2 ^ e.w.toNat) :
    ∀ sid' : SessionIndex, ∀ r ∈ (s.setSession sid v).session sid',
      sid'.toNat < s.params.nsess ∧ ∃ e ∈ s.eng, r.toNat < 2 ^ e.w.toNat := by
  intro sid' r hr
  by_cases hsame : sid' = sid
  · subst hsame
    rw [State.session_setSession_same] at hr
    obtain rfl := Option.mem_some.mp hr
    exact ⟨hsid, e, heng, hv⟩
  · rw [State.session_setSession_other _ _ _ hsame] at hr
    exact hs.session sid' r hr

/-- The effects of a command, recorded, meet the invariant. -/
theorem Effect.complete_inv {s u : State} {i : Instr} (hs : s.Inv) (h : Effect s i u) (c : ErrorCode) (hdr : Header) :
    (u.complete c hdr).Inv := by
  have hframe := h.frame
  cases h with
  | result v => exact hs.complete hframe hs.scratch hs.engine hs.session c hdr
  | oneShot v => exact hs.complete hframe rfl hs.engine hs.session c hdr
  | opened e sid heng hsid =>
    have ⟨_, ⟨_, hinit, _⟩, _, _⟩ := hs.engine e heng
    exact hs.complete hframe hs.scratch hs.engine (hs.session_setSession heng hsid hinit) c hdr
  | updated e sid r r' heng hsid hr hr' =>
    obtain ⟨-, e', heng', hlt⟩ := hs.session sid r hr
    obtain rfl := Option.some.inj (heng.symm.trans heng')
    exact hs.complete hframe hs.scratch hs.engine
      (hs.session_setSession heng hsid (tableUpdate_lt (hs.engine e heng) hlt hr')) c hdr
  | constructed hlegal =>
    refine hs.complete hframe hs.scratch (fun e he => ?_) (fun sid r hr => ?_) c hdr
    · obtain rfl := Option.mem_some.mp he
      exact Engine.ofCfg_inv _ _ hlegal
    · cases (State.closeSessions_session s sid).symm.trans hr

/-- Every packet keeps the invariant. -/
theorem runPacket_inv {p : Packet} {s t : State} (hs : s.Inv) (h : runPacket p s = .next t) : t.Inv := by
  have record : ∀ c hdr, (s.complete c hdr).Inv := hs.complete ⟨rfl, rfl, rfl⟩ hs.scratch hs.engine hs.session
  obtain ⟨i, -, hx⟩ | rfl := runPacket_next h
  · obtain ⟨u, hu, rfl⟩ | ⟨c, rfl⟩ := exec_next hx
    · exact hu.complete_inv hs .ok i.header
    · exact record c i.header
  · exact record .illegalCommand p.header

/-- The host's writes keep DMEM canonical and inside MEM_SIZE. -/
theorem State.Inv.hostWrites {s : State} (hs : s.Inv) {m : Memory} (h : s.HostWrites m) :
    Memory.wf m ∧ Memory.within m s.params.memSize := by
  obtain ⟨ws, haddr, rfl⟩ := h
  exact ⟨Memory.wf_writes ws hs.dmem_wf, Memory.within_writes ws hs.dmem_within haddr⟩

/-- Every operation of the host keeps the invariant. -/
theorem Performed.inv {s t : State} {op : HostOp} (hs : s.Inv) (h : Performed s op t) : t.Inv := by
  cases h with
  | reset => exact State.enterReset_inv hs.params_legal hs.dmem_wf hs.dmem_within
  | host hm seen =>
    obtain ⟨hwf, hwithin⟩ := hs.hostWrites hm
    exact hs.frame hwf hwithin _ _ _ _ _ _
  | packet draws hop hview hsettled hu =>
    obtain ⟨hwf, hwithin⟩ := hs.hostWrites hview
    have hu_inv := runPacket_inv (hs.frame hwf hwithin _ _ _ _ _ draws) hu
    obtain ⟨hparams, -⟩ := runPacket_frame hu
    obtain ⟨hwf, hwithin⟩ := hs.hostWrites hsettled
    exact hu_inv.frame hwf (hparams ▸ hwithin) _ _ _ _ _ _

/-- Settles O13, operation by operation; the index going up by 1 is no matter of the invariant. -/
theorem stepKeepsTheInvariant : Obligations.StepKeepsTheInvariant := by
  intro s t hs ht
  obtain ⟨-, rfl⟩ | ⟨op, -, hperf⟩ := step_next ht
  · exact hs
  · exact hperf.inv (hs.frame hs.dmem_wf hs.dmem_within _ _ _ _ _ _)

end Sys2Proof.Machine

/-! ## What a command and a host write leave unchanged (spec/20_memory.md R50, R51, R62, R65) -/

namespace Sys2Proof.Machine

/-- R21, R40, R51: no command reaches the host's side or the draw counter. -/
theorem Effect.host_frame {s u : State} {i : Instr} (h : Effect s i u) :
    u.host = s.host ∧ u.pos = s.pos ∧ u.seen = s.seen ∧ u.draws = s.draws := by
  cases h <;> exact ⟨rfl, rfl, rfl, rfl⟩

/-- Settles O52: by what the effects of a command keep; the recording of a code writes only STATUS and ERRHDR (R191). -/
theorem commandsNeverWriteMemory : Obligations.CommandsNeverWriteMemory := by
  intro i s t ht
  obtain ⟨u, hu, rfl⟩ | ⟨c, rfl⟩ := exec_next ht
  · obtain ⟨hparams, hdmem, -⟩ := hu.frame
    exact ⟨fun a => congrArg (Memory.read · a) hdmem, hdmem, hparams, hu.host_frame⟩
  · exact ⟨fun _ => rfl, rfl, rfl, rfl, rfl, rfl, rfl⟩

/-- The body leaves session sid of s as it is whenever it succeeds. -/
def LeavesSession (s : State) (sid : SessionIndex) (body : Except Stop State) : Prop :=
  ∀ u, body = .ok u → u.session sid = s.session sid

/-- A body that ends in a state with the session as before. -/
theorem LeavesSession.pure {s u : State} {sid : SessionIndex} (h : u.session sid = s.session sid) :
    LeavesSession s sid (Pure.pure u) := by
  rintro _ ⟨⟩
  exact h

/-- A check or a read of a value before the rest of a body reaches no session. -/
theorem LeavesSession.bind {α : Type} {s : State} {sid : SessionIndex} {x : Except Stop α}
    {f : α → Except Stop State} (h : ∀ a, LeavesSession s sid (f a)) : LeavesSession s sid (x >>= f) := by
  intro u hu
  obtain ⟨a, -, ha⟩ := bind_eq_ok.mp hu
  exact h a u ha

/-- The computation CALC and CALCB share reaches no session (R33, R170). -/
theorem oneShot_leavesSession (e : Engine) (addr len : Word) (bl : Int) (s : State) (sid : SessionIndex) :
    LeavesSession s sid (oneShot e addr len bl s) := by
  intro u hu
  obtain ⟨v, rfl⟩ := oneShot_eq_ok hu
  rfl

/-- A command leaves a session that its body leaves: the recording of a code reaches none (R191). -/
theorem command_session {h : Header} {s t : State} {body : Except Stop State} {sid : SessionIndex}
    (ht : command h s body = .next t) (hbody : LeavesSession s sid body) : t.session sid = s.session sid := by
  obtain ⟨u, hu, rfl⟩ | ⟨c, -, rfl⟩ := command_next ht
  · exact hbody u hu
  · rfl

/-- CFG leaves each session as it is (R118) or closes it (R117). -/
theorem execCfg_session {width : BitVec 7} {refin refout : Bool} {poly init xorout : Word} {s t : State}
    (ht : execCfg width refin refout poly init xorout s = .next t) (sid : SessionIndex) :
    t.session sid = s.session sid ∨ t.session sid = none := by
  rw [execCfg_eq] at ht
  obtain rfl := Host.Outcome.next.inj ht
  split
  · exact .inl rfl
  · exact .inr (s.closeSessions_session sid)

/-- R65, R157: a command other than CFG writes no session but the one it names. -/
theorem exec_session_of_ne_named {i : Instr} {s t : State} {sid : SessionIndex} (hcfg : isCfg i = false)
    (hne : namedSession i ≠ some sid) (ht : exec i s = .next t) : t.session sid = s.session sid := by
  have hother : ∀ named r, namedSession i = some named → (s.setSession named r).session sid = s.session sid :=
    fun named r hi => s.session_setSession_other named r fun h => hne (h ▸ hi)
  cases i with
  | cfg => cases hcfg
  | tblrd => exact command_session ht (.bind fun _ => .pure rfl)
  | refl => exact command_session ht (.bind fun _ => .bind fun _ => .pure rfl)
  | fin | res => exact command_session ht (.bind fun _ => .bind fun _ => .bind fun _ => .pure rfl)
  | snew => exact command_session ht (.bind fun _ => .bind fun _ => .pure (hother _ _ rfl))
  | upd =>
    exact command_session ht (.bind fun _ => .bind fun _ => .bind fun _ => .bind fun _ => .pure (hother _ _ rfl))
  | updb =>
    exact command_session ht
      (.bind fun _ => .bind fun _ => .bind fun _ => .bind fun _ => .bind fun _ => .pure (hother _ _ rfl))
  | calcBytes => exact command_session ht (.bind fun _ => .bind fun _ => oneShot_leavesSession _ _ _ _ s sid)
  | calcb => exact command_session ht (.bind fun _ => .bind fun _ => .bind fun _ => oneShot_leavesSession _ _ _ _ s sid)

/-- Settles O47: CFG by `execCfg_session`, every other command by `exec_session_of_ne_named`. -/
theorem otherSessionsAreUntouched : Obligations.OtherSessionsAreUntouched := by
  intro i s t sid ht hne
  cases i with
  | cfg => exact (execCfg_session ht sid).imp_right fun hclosed => ⟨rfl, hclosed⟩
  | _ => exact .inl (exec_session_of_ne_named rfl hne ht)

/-- R51: the host's write to an address that exists. -/
theorem State.hostWrite_of_lt {s : State} {a : Word} (ha : a.toNat < s.params.memSize) (b : Byte) :
    s.hostWrite a b = .next { s with dmem := s.dmem.write a.toNat b } :=
  if_pos (decide_eq_true ha)

/-- Settles O56: the step is the write of one byte, which a read sees at that address alone. -/
theorem hostWriteIsSeen : Obligations.HostWriteIsSeen := by
  intro s a b hs hop ha
  refine ⟨s.dmem.write a.toNat b, ?_, Memory.read_write hs.dmem_wf a.toNat b⟩
  simp only [step, hop, perform]
  exact s.advance.hostWrite_of_lt ha b

end Sys2Proof.Machine

/-! ## The datapath against the bit-serial reading (spec/42_bit_serial.md R134, spec/43_table_update.md R143) -/

namespace Sys2Proof.Machine

/-- k bit steps of a value that is 0 below bit k are a shift. -/
theorem bitSteps_eq_ushiftRight (p : Word) (k : Nat) {r : Word} (h : ∀ j < k, r.getLsbD j = false) :
    bitSteps p k r = r >>> k := by
  induction k generalizing r with
  | zero => exact (BitVec.ushiftRight_zero r).symm
  | succ k ih =>
    have hshift : ∀ j < k, (r >>> 1).getLsbD j = false := fun j hj => by
      rw [BitVec.getLsbD_ushiftRight]
      exact h (1 + j) (by omega)
    rw [bitSteps, bitStep_of_even (h 0 k.succ_pos), ih hshift, ← BitVec.shiftRight_add, Nat.add_comm]

/-- A bit fed k steps early stands at bit k. -/
theorem bitSteps_bit (p : Word) (k : Nat) (d : Bool) (hk : k < 64) :
    bitSteps p k (if d then BitVec.twoPow 64 k else 0) = if d then 1 else 0 := by
  cases d with
  | false => exact bitSteps_zero p k
  | true =>
    rw [if_pos rfl, if_pos rfl, bitSteps_eq_ushiftRight p k fun j hj => ?_]
    · apply BitVec.eq_of_getLsbD_eq
      intro j hj
      rw [BitVec.getLsbD_ushiftRight, BitVec.getLsbD_twoPow]
      simp [hk]
    · simp [BitVec.getLsbD_twoPow, hj.ne']

/-- The low k + 1 bits of a value are its low k bits and bit k. -/
theorem and_mask_succ (v : Word) (k : Nat) :
    v &&& mask (k + 1) = (v &&& mask k) ^^^ (if v.getLsbD k then BitVec.twoPow 64 k else 0) := by
  apply BitVec.eq_of_getLsbD_eq
  intro j hj
  have htop : (if v.getLsbD k then BitVec.twoPow 64 k else 0).getLsbD j = (v.getLsbD k && decide (k = j)) := by
    cases v.getLsbD k with
    | false => simp
    | true => simpa [BitVec.getLsbD_twoPow] using fun h : k = j => h ▸ hj
  rw [BitVec.getLsbD_xor, BitVec.getLsbD_and, BitVec.getLsbD_and, getLsbD_mask, getLsbD_mask, htop]
  obtain hlt | rfl | hgt := Nat.lt_trichotomy j k
  · simp [hj, hlt, hlt.ne', hlt.trans k.lt_succ_self]
  · simp [hj]
  · simp [hgt.ne, hgt.not_gt, show ¬ j < k + 1 by omega]

/-- R58, R131: data bit j of a byte is bit j of the byte as the block takes it in. -/
theorem getLsbD_inputByte (e : Engine) (b : Byte) {j : Nat} (hj : j < 8) :
    (e.inputByte b).getLsbD j = dataBit e.rin b j := by
  unfold Engine.inputByte dataBit
  split
  · rfl
  · exact getLsbD_refl8Rom b j hj

/-- R58: the first k data bits of a byte. -/
theorem take_byteBits (rin : Bool) (b : Byte) {k : Nat} (hk : k ≤ 8) :
    (byteBits rin b).take k = (List.range k).map (dataBit rin b) := by
  rw [byteBits, ← List.map_take, List.take_range, Nat.min_eq_left hk]

/-- R134: k bit steps on the masked byte are the serial fold of its first k data bits: by linearity bit k may be fed
before the first k steps or after them. -/
theorem serialFold_take_byteBits (e : Engine) (r : Word) (b : Byte) {k : Nat} (hk : k ≤ 8) :
    serialFold e.rpoly r ((byteBits e.rin b).take k) =
      bitSteps e.rpoly k (r ^^^ ((e.inputByte b).setWidth 64 &&& mask k)) := by
  rw [take_byteBits e.rin b hk]
  induction k with
  | zero => simp [serialFold, bitSteps, mask]
  | succ k ih =>
    have hbit : ((e.inputByte b).setWidth 64).getLsbD k = dataBit e.rin b k := by
      rw [← getLsbD_inputByte e b hk, BitVec.getLsbD_setWidth]
      simp [show k < 64 by omega]
    calc serialFold e.rpoly r ((List.range (k + 1)).map (dataBit e.rin b))
        = bitStep e.rpoly (serialFold e.rpoly r ((List.range k).map (dataBit e.rin b)) ^^^
            if dataBit e.rin b k then 1 else 0) := by
          simp [serialFold, List.range_succ, serialStep]
      _ = bitStep e.rpoly (bitSteps e.rpoly k (r ^^^ ((e.inputByte b).setWidth 64 &&& mask (k + 1)))) := by
          rw [ih (by omega), and_mask_succ, hbit, ← BitVec.xor_assoc, bitSteps_xor _ _ (_ ^^^ _),
            bitSteps_bit _ _ _ (by omega)]
      _ = bitSteps e.rpoly (k + 1) (r ^^^ ((e.inputByte b).setWidth 64 &&& mask (k + 1))) :=
          (bitSteps_add _ k 1 _).symm

/-- R134: the tail unit is the serial fold of the first k data bits, for each k it admits. -/
theorem bbbUpdate_eq_serialFold (e : Engine) (r : Word) (b : Byte) {k : Nat} (hk : 1 ≤ k ∧ k ≤ 8) :
    bbbUpdate e r b k = .ok (serialFold e.rpoly r ((byteBits e.rin b).take k)) :=
  bbbUpdate_eq_ok.mpr ⟨hk, serialFold_take_byteBits e r b hk.2⟩

/-- A byte already lies under `mask(8)`. -/
theorem setWidth_and_mask_eight (b : Byte) : b.setWidth 64 &&& mask 8 = b.setWidth 64 := by
  apply BitVec.eq_of_getLsbD_eq
  intro j hj
  rw [BitVec.getLsbD_and, BitVec.getLsbD_setWidth, getLsbD_mask]
  by_cases h8 : j < 8
  · simp [hj, h8]
  · simp [BitVec.getLsbD_of_ge b j (Nat.le_of_not_lt h8)]

/-- A register is its low byte and the rest above it. -/
theorem lowByte_xor_high (r : Word) : (lowByte r).setWidth 64 ^^^ (r >>> 8) <<< 8 = r := by
  apply BitVec.eq_of_getLsbD_eq
  intro j hj
  by_cases h8 : j < 8
  · simp [lowByte, hj, h8]
  · simp [lowByte, hj, h8, Nat.add_sub_cancel' (Nat.le_of_not_lt h8)]

/-- Eight bit steps of a value whose low byte is 0 take that byte out. -/
theorem bitSteps_eight_shiftLeft (p r : Word) : bitSteps p 8 ((r >>> 8) <<< 8) = r >>> 8 := by
  rw [bitSteps_eq_ushiftRight p 8 fun j hj => by simp [hj]]
  apply BitVec.eq_of_getLsbD_eq
  intro j hj
  simpa using BitVec.lt_of_getLsbD

/-- R134 item 2: the table fold of a whole byte is the serial fold of its eight data bits: the low byte of the
register goes through the table, the rest is shifted. -/
theorem foldByte_eq_serialFold {e : Engine} (htbl : e.tbl = buildTable e.rpoly) (r : Word) (b : Byte) :
    foldByte e r b = serialFold e.rpoly r (byteBits e.rin b) := by
  have hsplit : r ^^^ (e.inputByte b).setWidth 64 =
      (lowByte r ^^^ e.inputByte b).setWidth 64 ^^^ (r >>> 8) <<< 8 := by
    rw [BitVec.setWidth_xor, BitVec.xor_assoc, BitVec.xor_comm ((e.inputByte b).setWidth 64), ← BitVec.xor_assoc,
      lowByte_xor_high]
  calc foldByte e r b
      = bitSteps e.rpoly 8 ((lowByte r ^^^ e.inputByte b).setWidth 64) ^^^ bitSteps e.rpoly 8 ((r >>> 8) <<< 8) := by
        rw [foldByte, entry_of_buildTable htbl, tableEntry, bitSteps_eight_shiftLeft]
    _ = bitSteps e.rpoly 8 (r ^^^ ((e.inputByte b).setWidth 64 &&& mask 8)) := by
        rw [← bitSteps_xor, ← hsplit, setWidth_and_mask_eight]
    _ = serialFold e.rpoly r (byteBits e.rin b) := (serialFold_take_byteBits e r b le_rfl).symm

/-- R141, R143 item 4: the table fold of whole bytes is the serial fold of their data bits. -/
theorem foldl_foldByte_eq_serialFold {e : Engine} (htbl : e.tbl = buildTable e.rpoly) (r : Word) (bs : List Byte) :
    bs.foldl (foldByte e) r = serialFold e.rpoly r (bs.flatMap (byteBits e.rin)) := by
  rw [serialFold, List.foldl_flatMap]
  congr 1
  funext r b
  exact foldByte_eq_serialFold htbl r b

/-- A stream of data bits fed in two parts (R144). -/
theorem serialFold_append (p r : Word) (xs ys : List Bool) :
    serialFold p r (xs ++ ys) = serialFold p (serialFold p r xs) ys := List.foldl_append

/-- R58: the first 8f + k data bits of a buffer are those of its first f bytes and k of the next. -/
theorem take_flatMap_byteBits (rin : Bool) {bs : List Byte} {f k : Nat} (hk : k ≤ 8)
    (hlen : f + (if 0 < k then 1 else 0) ≤ bs.length) :
    (bs.flatMap (byteBits rin)).take (8 * f + k) =
      (bs.take f).flatMap (byteBits rin) ++ (byteBits rin (bs.getD f 0)).take k := by
  have hbulk : ((bs.take f).flatMap (byteBits rin)).length = 8 * f := by
    simp [List.length_flatMap, byteBits, Nat.min_eq_left (by omega : f ≤ bs.length), Nat.mul_comm]
  have htail : ((bs.drop f).flatMap (byteBits rin)).take k = (byteBits rin (bs.getD f 0)).take k := by
    rcases k.eq_zero_or_pos with rfl | hpos
    · simp
    · have hf : f < bs.length := by simpa [hpos] using hlen
      rw [List.drop_eq_getElem_cons hf, List.flatMap_cons,
        List.take_append_of_le_length (by simpa [byteBits] using hk), List.getD_eq_getElem _ _ hf]
  rw [← htail, ← hbulk, ← List.take_length_add_append, ← List.flatMap_append, List.take_append_drop]

/-- R140: the bits a bit length takes, once it passes R145: the whole bytes and the trailing bits, which lie in the
buffer. -/
theorem usedBits_eq {bl : Int} {len : Word} (h : bitLengthTooLong bl len = false) :
    usedBits bl len = 8 * (decodeBitLength bl len.toNat).1 + (decodeBitLength bl len.toNat).2 ∧
      (decodeBitLength bl len.toNat).1 + (if 0 < (decodeBitLength bl len.toNat).2 then 1 else 0) ≤ len.toNat := by
  unfold usedBits decodeBitLength
  simp only [bitLengthTooLong, Bool.and_eq_false_iff, decide_eq_false_iff_not] at h
  split
  · dsimp only
    split <;> omega
  · simp

/-- R54: MemRead of the first n bytes of a buffer that lies in DMEM. -/
theorem memRead_bufferBytes {s : State} {addr len : Word} (h : bufferOutside s.params.memSize addr len = false)
    {n : Nat} (hn : n ≤ len.toNat) : s.memRead addr.toNat n = .ok ((s.bufferBytes addr len).take n) := by
  have := of_decide_eq_false h
  refine memRead_eq_ok.mpr ⟨by omega, ?_⟩
  rw [State.bufferBytes, ← List.map_take, List.take_range, Nat.min_eq_left hn]

/-- R143 item 4: after the checks of R145 and R55 the bulk unit is the serial fold of the message bits. -/
theorem tableUpdate_eq_serialFold {e : Engine} (htbl : e.tbl = buildTable e.rpoly) {s : State} {addr len : Word}
    {bl : Int} (hbl : bitLengthTooLong bl len = false) (hmem : bufferOutside s.params.memSize addr len = false)
    (r : Word) :
    tableUpdate e s r addr len bl = .ok (serialFold e.rpoly r (s.messageBits e.rin addr len bl)) := by
  obtain ⟨hused, hlen⟩ := usedBits_eq hbl
  have hk := decodeBitLength_trailing bl len.toNat
  rw [tableUpdate, State.messageBits, hused]
  generalize decodeBitLength bl len.toNat = d at hlen hk ⊢
  obtain ⟨f, k⟩ := d
  dsimp only at hlen hk ⊢
  have hbytes : (s.bufferBytes addr len).length = len.toNat := by simp [State.bufferBytes]
  rw [memRead_bufferBytes hmem hlen, bind_ok, List.take_take, Nat.min_eq_left (Nat.le_add_right f _),
    foldl_foldByte_eq_serialFold htbl, take_flatMap_byteBits _ (by omega) (hbytes ▸ hlen), serialFold_append]
  rcases k.eq_zero_or_pos with rfl | hpos
  · rfl
  · rw [if_pos hpos, bbbUpdate_eq_serialFold _ _ _ ⟨hpos, by omega⟩]
    simp [hpos]

end Sys2Proof.Machine

/-! ## What of DMEM a command depends on (spec/20_memory.md R59, spec/43_table_update.md R141) -/

namespace Sys2Proof.Machine

/-- The state with another content of DMEM (R50). -/
def State.withDmem (s : State) (m : Memory) : State := { s with dmem := m }

@[simp] theorem State.withDmem_params (s : State) (m : Memory) : (s.withDmem m).params = s.params := rfl
@[simp] theorem State.withDmem_requireEngine (s : State) (m : Memory) :
    (s.withDmem m).requireEngine = s.requireEngine := rfl

/-- A command whose body commutes with a change f of the state commutes with it as a whole, if the recording of a code
(R191) does. -/
theorem command_map {h : Header} {s t : State} {body body' : Except Stop State} (f : State → State)
    (hcomplete : ∀ (u : State) (c : ErrorCode), (f u).complete c h = f (u.complete c h))
    (hbody : body' = f <$> body) (ht : command h s body = .next t) : command h (f s) body' = .next (f t) := by
  subst hbody
  rcases command_next ht with ⟨u, rfl, rfl⟩ | ⟨c, rfl, rfl⟩
  · exact congrArg Host.Outcome.next (hcomplete u .ok)
  · exact congrArg Host.Outcome.next (hcomplete s c)

/-- Behind a check only the case that passes it counts. -/
theorem raiseIf_bind_congr {α : Type} {bad : Bool} {c : ErrorCode} {f g : Unit → Except Stop α}
    (h : bad = false → f () = g ()) : (raiseIf bad c >>= f) = (raiseIf bad c >>= g) := by
  cases bad with
  | false => exact h rfl
  | true => rfl

/-- R170, R171: CALC and CALCB present the bulk unit's register, fed from ENG.RINIT; the scratch register only carries
it. -/
theorem oneShot_eq (e : Engine) (addr len : Word) (bl : Int) (s : State) :
    oneShot e addr len bl s =
      (tableUpdate e s e.rinit addr len bl >>= finalOf e) >>= fun v => pure { s.dropOne with result := v } := by
  rw [bind_assoc]
  rfl

/-- R141: the bulk unit gives the same on another DMEM with the same message bits. -/
theorem tableUpdate_withDmem {e : Engine} (htbl : e.tbl = buildTable e.rpoly) {s : State} {m : Memory}
    {addr len : Word} {bl : Int} (hbl : bitLengthTooLong bl len = false)
    (hmem : bufferOutside s.params.memSize addr len = false)
    (hbits : (s.withDmem m).messageBits e.rin addr len bl = s.messageBits e.rin addr len bl) (r : Word) :
    tableUpdate e (s.withDmem m) r addr len bl = tableUpdate e s r addr len bl := by
  rw [tableUpdate_eq_serialFold htbl hbl hmem, ← hbits]
  exact tableUpdate_eq_serialFold (s := s.withDmem m) htbl hbl hmem r

/-- UPDB on another DMEM with the same message bits. -/
theorem execUpdb_withDmem {s t : State} {e : Engine} {m : Memory} {sid : SessionIndex} {addr len bitlen : Word}
    (heng : s.eng = some e) (htbl : e.tbl = buildTable e.rpoly)
    (hbits : (s.withDmem m).messageBits e.rin addr len (sint64 bitlen) = s.messageBits e.rin addr len (sint64 bitlen))
    (ht : execUpdb sid addr len bitlen s = .next t) :
    execUpdb sid addr len bitlen (s.withDmem m) = .next (t.withDmem m) := by
  refine command_map (·.withDmem m) (fun _ _ => rfl) ?_ ht
  have he : s.requireEngine = .ok e := requireEngine_eq_ok.mpr heng
  simp only [map_bind, map_pure, State.withDmem_requireEngine, State.withDmem_params, he, bind_ok]
  refine bind_congr fun r => raiseIf_bind_congr fun hbl => raiseIf_bind_congr fun hmem => ?_
  rw [tableUpdate_withDmem htbl hbl hmem hbits]
  rfl

/-- CALCB on another DMEM with the same message bits. -/
theorem execCalcb_withDmem {s t : State} {e : Engine} {m : Memory} {addr len bitlen : Word}
    (heng : s.eng = some e) (htbl : e.tbl = buildTable e.rpoly)
    (hbits : (s.withDmem m).messageBits e.rin addr len (sint64 bitlen) = s.messageBits e.rin addr len (sint64 bitlen))
    (ht : execCalcb addr len bitlen s = .next t) :
    execCalcb addr len bitlen (s.withDmem m) = .next (t.withDmem m) := by
  refine command_map (·.withDmem m) (fun _ _ => rfl) ?_ ht
  have he : s.requireEngine = .ok e := requireEngine_eq_ok.mpr heng
  simp only [map_bind, State.withDmem_requireEngine, State.withDmem_params, he, bind_ok]
  refine raiseIf_bind_congr fun hbl => raiseIf_bind_congr fun hmem => ?_
  rw [oneShot_eq, oneShot_eq, map_bind, tableUpdate_withDmem htbl hbl hmem hbits]
  rfl

/-- Settles O53: behind the checks, which do not look at DMEM, the bulk unit is the serial fold of the message bits. -/
theorem unusedBitsDoNotMatter : Obligations.UnusedBitsDoNotMatter := by
  intro s e m sid addr len bitlen hs heng hbits
  obtain ⟨-, -, -, htbl⟩ := hs.engine e heng
  exact ⟨fun t ht => execUpdb_withDmem heng htbl hbits ht, fun t ht => execCalcb_withDmem heng htbl hbits ht⟩

end Sys2Proof.Machine

/-! ## The decoder in one equation (spec/30_encoding.md R79, R83, R86) -/

namespace Sys2Proof

/-- The row of an opcode, for case splits along `Opcode`; `mem_opcodeMap` ties it to the opcode map. -/
def Opcode.row : Opcode → OpcodeRow
  | .refl => opcodeMap[0]
  | .cfg => opcodeMap[1]
  | .tblrd => opcodeMap[2]
  | .snew => opcodeMap[3]
  | .upd => opcodeMap[4]
  | .updb => opcodeMap[5]
  | .fin => opcodeMap[6]
  | .res => opcodeMap[7]
  | .calcBytes => opcodeMap[8]
  | .calcb => opcodeMap[9]

/-- R79: the opcode map has one row per opcode. -/
theorem mem_opcodeMap {row : OpcodeRow} : row ∈ opcodeMap ↔ ∃ op : Opcode, op.row = row := by
  constructor
  · intro h
    have hrow : ∀ row ∈ opcodeMap, row.op.row = row := by decide
    exact ⟨row.op, hrow row h⟩
  · rintro ⟨op, rfl⟩
    cases op <;> decide

@[simp] theorem Opcode.row_op (op : Opcode) : op.row.op = op := by cases op <;> rfl

/-- R86: looking up the opcode of a row finds the row. -/
theorem rowOf_opc (op : Opcode) : rowOf op.row.opc = some op.row := by cases op <;> rfl

/-- R79: every mask covers OPC, and the pattern holds the row's OPC there. -/
theorem Opcode.row_opcOf (op : Opcode) : opcOf op.row.mask = 0xFF#8 ∧ opcOf op.row.pattern = op.row.opc := by
  cases op <;> decide

/-- A header that matches a row has the row's opcode. -/
theorem opcOf_of_match {h : Header} {op : Opcode} (hm : h &&& op.row.mask = op.row.pattern) :
    opcOf h = op.row.opc := by
  obtain ⟨hmask, hpattern⟩ := op.row_opcOf
  calc opcOf h = opcOf h &&& opcOf op.row.mask := by rw [hmask]; exact BitVec.and_allOnes.symm
    _ = opcOf (h &&& op.row.mask) := BitVec.extractLsb'_and.symm
    _ = op.row.opc := by rw [hm, hpattern]

/-- R83, R86: what the decoder accepts, and what it reads from it. -/
theorem decode_eq_ok {p : Packet} {i : Instr} :
    decode p = .ok i ↔ ∃ op : Opcode, p.header &&& op.row.mask = op.row.pattern ∧
      p.operands.length = op.row.k ∧ p.fields op = i := by
  constructor
  · intro h
    unfold decode at h
    split at h
    next => cases h
    next row hrow =>
      obtain ⟨op, rfl⟩ := mem_opcodeMap.mp (List.mem_of_find?_eq_some hrow)
      split at h
      next => cases h
      next hm =>
        split at h
        next => cases h
        next hk => exact ⟨op, not_not.mp hm, not_not.mp hk, by simpa using h⟩
  · rintro ⟨op, hm, hk, rfl⟩
    simp only [decode, opcOf_of_match hm, rowOf_opc, hm, hk, ne_eq, not_true_eq_false, if_false, Opcode.row_op]

/-- R82, R86: the decoder names the opcode unassigned exactly when no row has it. -/
theorem decode_eq_unassignedOpcode {p : Packet} :
    decode p = .error .unassignedOpcode ↔ rowOf (opcOf p.header) = none := by
  unfold decode
  cases rowOf (opcOf p.header) with
  | none => simp
  | some row => dsimp only; split_ifs <;> simp

/-- R82: "OPC = 0x00 or 0x0B to 0xFF" have no row. -/
theorem rowOf_eq_none {opc : BitVec 8} : rowOf opc = none ↔ opc.toNat = 0 ∨ 0x0B ≤ opc.toNat := by
  simp only [rowOf, opcodeMap, List.find?_eq_none, List.forall_mem_cons, beq_iff_eq, ← BitVec.toNat_inj,
    BitVec.ofNat_eq_ofNat, BitVec.toNat_ofNat, Nat.reducePow, Nat.reduceMod, List.not_mem_nil, false_imp_iff,
    implies_true, and_true]
  omega

/-- R71: OPC is the header modulo 256. -/
theorem toNat_opcOf (h : Header) : (opcOf h).toNat = h.toNat % 256 := by simp [opcOf]

/-- R79 as the rule prints it is the decoder's opcode map. -/
theorem manualRows_eq : Machine.manualRows = opcodeMap.map fun row => (row.pattern, row.mask, row.k) := rfl

/-- R83 in terms of the opcodes. -/
theorem legalPacket_iff {p : Packet} :
    Machine.LegalPacket p ↔ ∃ op : Opcode, p.header &&& op.row.mask = op.row.pattern ∧
      p.operands.length = op.row.k := by
  simp [Machine.LegalPacket, manualRows_eq, mem_opcodeMap]

/-- Settles O4: acceptance is `decode_eq_ok` with the instruction forgotten; the unassigned opcodes are those without
a row. -/
theorem decoderAcceptsExactlyTheOpcodeMap : Obligations.DecoderAcceptsExactlyTheOpcodeMap := by
  refine ⟨fun p => ?_, fun p => ?_⟩
  · simp [decode_eq_ok, legalPacket_iff]
  · rw [decode_eq_unassignedOpcode, rowOf_eq_none, toNat_opcOf]

end Sys2Proof

/-! ## Header fields (spec/30_encoding.md R71 to R77, R87) -/

namespace Sys2Proof

/-- The bits n to n + w - 1 of a header. -/
def fieldMask (w n : Nat) : Header := (BitVec.allOnes w).setWidth 32 <<< n

/-- A field placed where it was read is the header with every other bit 0. -/
theorem place_extract (h : Header) (w n : Nat) :
    (h.extractLsb' n w).setWidth 32 <<< n = h &&& fieldMask w n := by
  apply BitVec.eq_of_getLsbD_eq
  intro j hj
  by_cases hn : j < n
  · simp [fieldMask, hn]
  · simp [fieldMask, hj, hn, Nat.add_sub_cancel' (Nat.le_of_not_lt hn), Bool.and_comm]

/-- A field reads back what is placed in it over zeros. -/
theorem extract_or_place_same {w n : Nat} {h : Header} (f : BitVec w) (hn : n + w ≤ 32) (hh : h.extractLsb' n w = 0) :
    (h ||| (f.setWidth 32 <<< n)).extractLsb' n w = f := by
  rw [BitVec.extractLsb'_or, hh]
  apply BitVec.eq_of_getLsbD_eq
  intro j hj
  simp [hj, show n + j < 32 by omega]

/-- A field does not see what is placed in another. -/
theorem extract_or_place_other {w n v m : Nat} (h : Header) (f : BitVec w) (hdisjoint : m + v ≤ n ∨ n + w ≤ m) :
    (h ||| (f.setWidth 32 <<< n)).extractLsb' m v = h.extractLsb' m v := by
  apply BitVec.eq_of_getLsbD_eq
  intro j hj
  obtain hlow | hhigh := hdisjoint
  · simp [show m + j < n by omega]
  · simp [BitVec.getLsbD_of_ge f (m + j - n) (by omega)]

/-- A field that a mask leaves free does not matter under the mask. -/
theorem or_place_and_mask {w n : Nat} {h mask pattern : Header} (f : BitVec w) (hh : h &&& mask = pattern)
    (hfree : fieldMask w n &&& mask = 0) : (h ||| (f.setWidth 32 <<< n)) &&& mask = pattern := by
  have hf : f.setWidth 32 <<< n = (f.setWidth 32 <<< n) &&& fieldMask w n := by
    rw [fieldMask, ← BitVec.shiftLeft_and_distrib, ← BitVec.setWidth_and, BitVec.and_allOnes]
  rw [BitVec.and_or_distrib_right, hh, hf, BitVec.and_assoc, hfree]
  simp

/-- A header is the bits a row fixes and the bits it leaves free. -/
theorem or_free_bits {h mask pattern free : Header} (hm : h &&& mask = pattern)
    (hfree : mask ||| free = BitVec.allOnes 32) : pattern ||| (h &&& free) = h := by
  rw [← hm, ← BitVec.and_or_distrib_left, hfree, BitVec.and_allOnes]

/-- A header that matches a row with one field is the row's pattern with the field placed in it. -/
theorem or_place_extract_of_match {h mask pattern : Header} {w n : Nat} (hm : h &&& mask = pattern)
    (hfree : mask ||| fieldMask w n = BitVec.allOnes 32) :
    pattern ||| ((h.extractLsb' n w).setWidth 32 <<< n) = h := by
  rw [place_extract, or_free_bits hm hfree]

/-- A flag is a field of one bit. -/
theorem ofBool_getLsbD (h : Header) (n : Nat) : BitVec.ofBool (h.getLsbD n) = h.extractLsb' n 1 := by
  apply BitVec.eq_of_getLsbD_eq
  intro j hj
  simp [show j = 0 by omega]

end Sys2Proof

/-! ## Encoding and decoding are inverse (spec/30_encoding.md R72 to R77, R81, R86, R87) -/

namespace Sys2Proof

/-- The opcode of a command (R79). -/
def Instr.opcode : Instr → Opcode
  | .refl .. => .refl
  | .cfg .. => .cfg
  | .tblrd .. => .tblrd
  | .snew .. => .snew
  | .upd .. => .upd
  | .updb .. => .updb
  | .fin .. => .fin
  | .res .. => .res
  | .calcBytes .. => .calcBytes
  | .calcb .. => .calcb

/-- R79, R87: the header of a command matches its row. -/
theorem Instr.header_match (i : Instr) : i.header &&& i.opcode.row.mask = i.opcode.row.pattern := by
  cases i with
  | calcBytes | calcb => exact BitVec.and_allOnes
  | refl | tblrd | snew | upd | updb | fin | res =>
    dsimp only [Instr.opcode]
    exact or_place_and_mask _ (by decide) (by decide)
  | cfg =>
    dsimp only [Instr.opcode]
    refine or_place_and_mask _ (or_place_and_mask _ (or_place_and_mask _ ?_ ?_) ?_) ?_ <;> decide

/-- R80, R87: a command has the operands its row requires. -/
theorem Instr.length_operands (i : Instr) : i.operands.length = i.opcode.row.k := by cases i <;> rfl

/-- R72 to R77: the fields and operands of a command's packet are those of the command. -/
theorem fields_encode (i : Instr) : (encode i).fields i.opcode = i := by
  cases i with
  | calcBytes | calcb => rfl
  | refl nbits value => exact congrArg (Instr.refl · value) (extract_or_place_same nbits (by decide) (by decide))
  | tblrd index => exact congrArg Instr.tblrd (extract_or_place_same index (by decide) (by decide))
  | snew sid => exact congrArg Instr.snew (extract_or_place_same sid (by decide) (by decide))
  | upd sid addr len => exact congrArg (Instr.upd · addr len) (extract_or_place_same sid (by decide) (by decide))
  | updb sid addr len bitlen =>
    exact congrArg (Instr.updb · addr len bitlen) (extract_or_place_same sid (by decide) (by decide))
  | fin sid => exact congrArg Instr.fin (extract_or_place_same sid (by decide) (by decide))
  | res sid => exact congrArg Instr.res (extract_or_place_same sid (by decide) (by decide))
  | cfg width refin refout poly init xorout =>
    simp [encode, Instr.header, Instr.opcode, Instr.operands, Packet.fields, widthField, extract_or_place_same,
      extract_or_place_other]

/-- Settles O2: a command's packet matches its row (`Instr.header_match`, `Instr.length_operands`), and the row reads
the command back (`fields_encode`). -/
theorem decodeOfEncode : Obligations.DecodeOfEncode := fun i =>
  decode_eq_ok.mpr ⟨i.opcode, i.header_match, i.length_operands, fields_encode i⟩

/-- R81: a packet's header is that of the command its row reads from it: the bits the row leaves free are fields. -/
theorem header_fields {p : Packet} {op : Opcode} (hm : p.header &&& op.row.mask = op.row.pattern) :
    (p.fields op).header = p.header := by
  cases op with
  | calcBytes | calcb => exact hm.symm.trans BitVec.and_allOnes
  | refl | tblrd | snew | upd | updb | fin | res => exact or_place_extract_of_match hm (by decide)
  | cfg =>
    simp only [Packet.fields, Instr.header, widthField, ofBool_getLsbD, place_extract, BitVec.or_assoc,
      ← BitVec.and_or_distrib_left]
    exact or_free_bits hm (by decide)

/-- R80: a packet's operands are those of the command its row reads from it. -/
theorem operands_fields {p : Packet} {op : Opcode} (hk : p.operands.length = op.row.k) :
    (p.fields op).operands = p.operands := by
  obtain ⟨header, ops⟩ := p
  cases op with
  | tblrd | snew | fin | res => exact (List.length_eq_zero_iff.mp hk).symm
  | refl => obtain ⟨a, rfl⟩ := List.length_eq_one_iff.mp hk; rfl
  | upd | calcBytes => obtain ⟨a, b, rfl⟩ := List.length_eq_two.mp hk; rfl
  | cfg | updb | calcb => obtain ⟨a, b, c, rfl⟩ := List.length_eq_three.mp hk; rfl

/-- Settles O3: header and operands of what a row reads from a packet are the packet's. -/
theorem encodeOfDecode : Obligations.EncodeOfDecode := by
  intro p i h
  obtain ⟨op, hm, hk, rfl⟩ := decode_eq_ok.mp h
  rw [encode, header_fields hm, operands_fields hk]

/-- Settles O1: the ten packets of R89 are concrete, and the decoder is evaluated on them. -/
theorem workedEncodingsDecode : Obligations.WorkedEncodingsDecode := by
  unfold Obligations.WorkedEncodingsDecode
  decide

end Sys2Proof

/-! ## The byte form of a packet (spec/30_encoding.md R70, R85) -/

namespace Sys2Proof

@[simp] theorem length_headerBytes (h : Header) : (headerBytes h).length = 4 := rfl

@[simp] theorem length_wordBytes (v : Word) : (wordBytes v).length = 8 := rfl

@[simp] theorem length_flatMap_wordBytes (ops : List Word) : (ops.flatMap wordBytes).length = 8 * ops.length := by
  simp [List.length_flatMap, Nat.mul_comm]

@[simp] theorem Packet.length_toBytes (p : Packet) : p.toBytes.length = 4 + 8 * p.operands.length := by
  rw [Packet.toBytes, List.length_append, length_headerBytes, length_flatMap_wordBytes]

/-- R85: byte j of a header. -/
theorem getElem?_headerBytes (h : Header) {j : Nat} (hj : j < 4) :
    (headerBytes h)[j]? = some (h.extractLsb' (8 * j) 8) := by
  interval_cases j <;> rfl

/-- R85: byte j of an operand. -/
theorem getElem?_wordBytes (v : Word) {j : Nat} (hj : j < 8) :
    (wordBytes v)[j]? = some (v.extractLsb' (8 * j) 8) := by
  interval_cases j <;> rfl

/-- R85: byte j of operand i, counted from the end of the header. -/
theorem getElem?_flatMap_wordBytes {ops : List Word} {i : Nat} {v : Word} (hi : ops[i]? = some v) {j : Nat}
    (hj : j < 8) : (ops.flatMap wordBytes)[8 * i + j]? = some (v.extractLsb' (8 * j) 8) := by
  induction ops generalizing i with
  | nil => simp at hi
  | cons w ops ih =>
    rw [List.flatMap_cons]
    cases i with
    | zero =>
      obtain rfl : w = v := by simpa using hi
      rw [Nat.mul_zero, Nat.zero_add, List.getElem?_append_left (by simpa using hj), getElem?_wordBytes w hj]
    | succ i =>
      rw [List.getElem?_append_right (by simp; omega), length_wordBytes,
        show 8 * (i + 1) + j - 8 = 8 * i + j by omega]
      exact ih (by simpa using hi)

/-- R85: the four bytes of a header, joined. -/
theorem append_headerBytes (h : Header) :
    h.extractLsb' 24 8 ++ h.extractLsb' 16 8 ++ h.extractLsb' 8 8 ++ h.extractLsb' 0 8 = h := by
  simp (disch := rfl) only [BitVec.extractLsb'_append_extractLsb'_eq_extractLsb']
  exact BitVec.extractLsb'_eq_self

/-- R85: the eight bytes of an operand, joined. -/
theorem append_wordBytes (v : Word) :
    v.extractLsb' 56 8 ++ v.extractLsb' 48 8 ++ v.extractLsb' 40 8 ++ v.extractLsb' 32 8 ++ v.extractLsb' 24 8 ++
      v.extractLsb' 16 8 ++ v.extractLsb' 8 8 ++ v.extractLsb' 0 8 = v := by
  simp (disch := rfl) only [BitVec.extractLsb'_append_extractLsb'_eq_extractLsb']
  exact BitVec.extractLsb'_eq_self

/-- R85: operands are read back from their bytes. -/
theorem operandsOfBytes_flatMap_wordBytes (ops : List Word) : operandsOfBytes (ops.flatMap wordBytes) = some ops := by
  induction ops with
  | nil => rfl
  | cons v ops ih =>
    rw [List.flatMap_cons, wordBytes]
    simp only [List.cons_append, List.nil_append, operandsOfBytes, ih, append_wordBytes, Option.map_some]

/-- R70, R85: a packet of the command port is read back from its bytes. -/
theorem Packet.ofBytes_toBytes {p : Packet} (hk : p.operands.length ≤ 3) : Packet.ofBytes p.toBytes = some p := by
  rw [Packet.toBytes, headerBytes]
  simp only [List.cons_append, List.nil_append, Packet.ofBytes, operandsOfBytes_flatMap_wordBytes, hk, if_true,
    append_headerBytes]

/-- Settles O5: the header's bytes come first, each operand's at its place behind them, and both are read back. -/
theorem packetBytesAreLittleEndian : Obligations.PacketBytesAreLittleEndian := by
  refine fun p => ⟨p.length_toBytes, fun j hj => ?_, fun i v hi j hj => ?_, Packet.ofBytes_toBytes⟩
  · rw [Packet.toBytes, List.getElem?_append_left (by simpa using hj), getElem?_headerBytes _ hj]
  · rw [Packet.toBytes, List.getElem?_append_right (by simp; omega), length_headerBytes,
      show 4 + 8 * i + j - 4 = 8 * i + j by omega, getElem?_flatMap_wordBytes hi hj]

/-- R79, R80: no opcode requires more operands than a packet can carry (R70). -/
theorem operandCount_le (opc : BitVec 8) : operandCount opc ≤ 3 := by
  unfold operandCount
  cases hrow : rowOf opc with
  | none => exact Nat.zero_le 3
  | some row =>
    have hk : ∀ row ∈ opcodeMap, row.k ≤ 3 := by decide
    exact hk row (List.mem_of_find?_eq_some hrow)

/-- The packet of a table word is one of the command port (log entry 16). -/
theorem Packet.length_operands_ofTableWord (nbits w : Nat) : (Packet.ofTableWord nbits w).operands.length ≤ 3 := by
  simpa [Packet.ofTableWord] using operandCount_le _

/-- The decoder on bytes agrees with the decoder on the packet they stand for. -/
theorem decodeBytes_toBytes {p : Packet} (hk : p.operands.length ≤ 3) : decodeBytes p.toBytes = decode p := by
  simp only [decodeBytes, Packet.ofBytes_toBytes hk]

end Sys2Proof

/-! ## The operation placed by `withFetchWord` (log entries 13 and 16) -/

namespace Sys2Proof.Machine

/-- The operation placed stands at the host's index, also when the index is past the end of the list. -/
theorem nextOp_withFetchWord (s : State) (nbits w : Nat) :
    (s.withFetchWord nbits w).nextOp = some (.submit (Packet.ofTableWord nbits w)) := by
  have hlen : (s.host.take s.pos).length ≤ s.pos := by simp
  rw [State.nextOp, State.withFetchWord, List.append_assoc, List.getElem?_append_right hlen,
    List.getElem?_append_left (by simp), List.getElem?_replicate, if_pos (by simp)]

/-- Settles O9: the step performs the submission placed; its packet is read back from its bytes. -/
theorem fetchWordIsTheNextPacket : Obligations.FetchWordIsTheNextPacket := by
  refine fun s nbits w => ⟨?_, ?_⟩
  · simp only [step, nextOp_withFetchWord, perform]
    rfl
  · rw [decodeTableWord, decodeBytes_toBytes (Packet.length_operands_ofTableWord nbits w)]

end Sys2Proof.Machine

/-! ## The assembler (spec/30_encoding.md R87, R88) -/

namespace Sys2Proof.Machine

@[simp] theorem fitsOperand_eq_true {v : Int} : fitsOperand v = true ↔ OperandFits v := by
  simp only [fitsOperand, Bool.and_eq_true, decide_eq_true_eq]

@[simp] theorem fitsBitlen_eq_true {v : Int} : fitsBitlen v = true ↔ BitlenFits v := by
  simp only [fitsBitlen, Bool.and_eq_true, decide_eq_true_eq]
  omega

/-- R87, R88: a line that stands for a command is assembled to the command's packet if its values fit, and refused
otherwise. -/
theorem assemble_of_asmInstr {line : AsmLine} {i : Instr} (hi : asmInstr (expandAsm line) = some i) :
    assemble line = if line.wellFormed then some (.submit (encode i)) else none := by
  unfold assemble
  split
  · split
    next => simp [expandAsm, asmInstr] at hi
    next => rw [hi, Option.map_some]
  · rfl

/-- R87: the packet of a line, with the condition and the packet written as a statement needs them. -/
theorem assemble_eq_ite {line : AsmLine} {i : Instr} {p : Packet} {P : Prop} [Decidable P]
    (hi : asmInstr (expandAsm line) = some i) (hfits : line.wellFormed = true ↔ P) (hp : P → encode i = p) :
    assemble line = if P then some (.submit p) else none := by
  rw [assemble_of_asmInstr hi]
  exact ite_congr (propext hfits) (fun h => by rw [hp h]) (fun _ => rfl)

/-- R88: two lines that stand for one command and are well formed alike are assembled alike. -/
theorem assemble_congr {line line' : AsmLine} {i : Instr} (hi : asmInstr (expandAsm line) = some i)
    (hi' : asmInstr (expandAsm line') = some i) (hfits : line.wellFormed = line'.wellFormed) :
    assemble line = assemble line' := by
  rw [assemble_of_asmInstr hi, assemble_of_asmInstr hi', hfits]

/-- A line that is not well formed is refused. -/
theorem assemble_of_not_wellFormed {line : AsmLine} (h : line.wellFormed = false) : assemble line = none := by
  unfold assemble
  exact if_neg (by simp [h])

/-- The only packets the assembler produces are those of commands. -/
theorem assemble_eq_submit {line : AsmLine} {p : Packet} (h : assemble line = some (.submit p)) :
    ∃ i, encode i = p := by
  unfold assemble at h
  split at h
  · split at h
    · cases h
    · obtain ⟨i, -, hi⟩ := Option.map_eq_some_iff.mp h
      exact ⟨i, HostOp.submit.inj hi⟩
  · cases h

/-- R88: q whole bytes that hold NBITS bits, fewer than 8 of them unused, are `ceil(NBITS/8)`. -/
theorem ceilBytes_eq {nbits q : Int} (hle : nbits ≤ 8 * q) (hlt : 8 * q < nbits + 8) : ceilBytes nbits = q := by
  unfold ceilBytes
  omega

/-- R88: the length of a pseudo-instruction fits its operand when its bit length does. -/
theorem fitsOperand_and_fitsBitlen {nbits q : Int} (h0 : 0 ≤ nbits) (hle : nbits ≤ 8 * q) (hlt : 8 * q < nbits + 8) :
    (fitsOperand q && fitsBitlen nbits) = fitsBitlen nbits := by
  rw [Bool.and_eq_right_iff_imp, fitsBitlen_eq_true, fitsOperand_eq_true]
  omega

/-- Settles O58: with q the ceiling of NBITS / 8 both lines stand for one command, and q fits its operand. -/
theorem pseudoInstructionsExpand : Obligations.PseudoInstructionsExpand := by
  refine ⟨fun sid addr nbits q h0 hle hlt => ?_, fun sid addr nbits hneg => ?_, fun sid addr len => ?_⟩
  · have hfits := fitsOperand_and_fitsBitlen h0 hle hlt
    obtain rfl := ceilBytes_eq hle hlt
    exact ⟨assemble_congr rfl rfl (by simp [AsmLine.wellFormed, h0, Bool.and_assoc, hfits]),
      assemble_congr rfl rfl (by simp [AsmLine.wellFormed, h0, Bool.and_assoc, hfits])⟩
  · have hnbits : ¬ 0 ≤ nbits := by omega
    exact ⟨assemble_of_not_wellFormed (by simp [AsmLine.wellFormed, hnbits]),
      assemble_of_not_wellFormed (by simp [AsmLine.wellFormed, hnbits])⟩
  · exact assemble_congr rfl rfl (by simp [AsmLine.wellFormed, show fitsBitlen (-1) = true from rfl])

/-- R87: a header field written as a number. -/
theorem or_place_ofNat (opc : Nat) {w f : Nat} (n : Nat) (hw : w ≤ 32) (hf : f < 2 ^ w) :
    BitVec.ofNat 32 opc ||| ((BitVec.ofNat w f).setWidth 32 <<< n) = BitVec.ofNat 32 (opc ||| f <<< n) := by
  rw [BitVec.ofNat_or, BitVec.setWidth_ofNat_of_le_of_lt hw hf]
  congr 1
  exact BitVec.eq_of_toNat_eq (by simp [Nat.shiftLeft_eq, Nat.mod_mul_mod])

/-- R87: the session index of a line in the header. -/
theorem or_place_session (opc : Nat) {sid : Nat} (hs : sid ≤ 15) :
    BitVec.ofNat 32 opc ||| ((BitVec.ofNat 4 sid).setWidth 32 <<< 8) = BitVec.ofNat 32 (opc ||| sid <<< 8) :=
  or_place_ofNat opc 8 (by decide) (by omega)

/-- R87: a flag of a line in the header. -/
theorem ofBool_beq_one {flag : Nat} (h : flag ≤ 1) : BitVec.ofBool (flag == 1) = BitVec.ofNat 1 flag := by
  interval_cases flag <;> rfl

/-- R87: the header of `cfg`. -/
theorem header_cfg_ofNat {width refin refout : Nat} (hw : width ≤ 127) (hri : refin ≤ 1) (hro : refout ≤ 1)
    (poly init xorout : Word) :
    (Instr.cfg (BitVec.ofNat 7 width) (refin == 1) (refout == 1) poly init xorout).header =
      BitVec.ofNat 32 (0x02 ||| width <<< 12 ||| refin <<< 19 ||| refout <<< 20) := by
  rw [Instr.header, ofBool_beq_one hri, ofBool_beq_one hro, or_place_ofNat _ _ (by decide) (by omega),
    or_place_ofNat _ _ (by decide) (by omega), or_place_ofNat _ _ (by decide) (by omega)]

/-- Settles O59: each line stands for its command (`assemble_eq_ite`), whose header is R87's H when the fields fit; and
the decoder reads back what the encoder made. -/
theorem assemblerEncodesWhatFitsAndRefusesTheRest : Obligations.AssemblerEncodesWhatFitsAndRefusesTheRest := by
  refine ⟨fun nbits value => ?refl, fun width refin refout poly init xorout => ?cfg, fun index => ?tblrd,
    fun sid => ?snew, fun sid addr len => ?upd, fun sid addr len bitlen => ?updb, fun sid => ?fin, fun sid => ?res,
    fun addr len => ?calcBytes, fun addr len bitlen => ?calcb, fun line p h => ?accepted⟩
  case refl =>
    refine assemble_eq_ite rfl (by simp [AsmLine.wellFormed]) fun ⟨hn, _⟩ => ?_
    exact congrArg (Packet.mk · _) (or_place_ofNat 0x01 12 (by decide) (by omega))
  case cfg =>
    refine assemble_eq_ite rfl (by simp [AsmLine.wellFormed, and_assoc]) fun ⟨hw, hri, hro, _⟩ => ?_
    exact congrArg (Packet.mk · _) (header_cfg_ofNat hw hri hro _ _ _)
  case tblrd =>
    refine assemble_eq_ite rfl (by simp [AsmLine.wellFormed]) fun hindex => ?_
    exact congrArg (Packet.mk · _) (or_place_ofNat 0x03 12 (by decide) (by omega))
  case snew | fin | res =>
    refine assemble_eq_ite rfl (by simp [AsmLine.wellFormed]) fun hs => ?_
    exact congrArg (Packet.mk · _) (or_place_session _ hs)
  case upd | updb =>
    refine assemble_eq_ite rfl (by simp [AsmLine.wellFormed, and_assoc]) fun ⟨hs, _⟩ => ?_
    exact congrArg (Packet.mk · _) (or_place_session _ hs)
  case calcBytes | calcb => exact assemble_eq_ite rfl (by simp [AsmLine.wellFormed, and_assoc]) fun _ => rfl
  case accepted =>
    obtain ⟨i, rfl⟩ := assemble_eq_submit h
    exact ⟨i, decodeOfEncode i⟩

end Sys2Proof.Machine

/-! ## Reflection (spec/40_reflection.md) -/

namespace Sys2Proof.Machine

/-- R103: with NBITS in 1..64 both the check and the reverser pass, and REFL completes with code 0. -/
theorem exec_refl_legal (s : State) {nbits : BitVec 7} (value : Word) (h1 : 1 ≤ nbits.toNat) (h64 : nbits.toNat ≤ 64) :
    exec (.refl nbits value) s = .next
      ({ s with result := reflect value nbits.toNat }.complete .ok (Instr.refl nbits value).header) := by
  have hcheck : (decide (nbits.toNat < 1) || decide (64 < nbits.toNat)) = false := by
    rw [Bool.or_eq_false_iff, decide_eq_false_iff_not, decide_eq_false_iff_not]
    omega
  have hunit : reflectUnit value nbits.toNat = .ok (reflect value nbits.toNat) :=
    reflectUnit_eq_ok.mpr ⟨⟨h1, h64⟩, rfl⟩
  simp only [exec, execRefl, hcheck, raiseIf_false, bind_ok, hunit, pure_eq_ok, command_ok]

/-- Settles O25: the value written is `reflect`, whose bits `getLsbD_reflect` gives. -/
theorem reflReversesTheLowBits : Obligations.ReflReversesTheLowBits := by
  intro s nbits value h1 h64
  refine ⟨reflect value nbits.toNat, exec_refl_legal s value h1 h64, fun i hi => ?_⟩
  rw [getLsbD_reflect, decide_eq_true hi, Bool.true_and]

/-- R101 item 2: bit i below n comes back from n-1-(n-1-i) = i, and the bits from n on are lost. -/
theorem reflect_reflect (v : Word) {n : Nat} (hn : n ≤ 64) : reflect (reflect v n) n = v &&& mask n := by
  apply BitVec.eq_of_getLsbD_eq
  intro i hi
  rw [getLsbD_reflect, getLsbD_reflect, BitVec.getLsbD_and, getLsbD_mask]
  by_cases hin : i < n
  · have hback : n - 1 - (n - 1 - i) = i := by omega
    simp [hi, hin, hback, show n - 1 - i < 64 by omega, show n - 1 - i < n by omega]
  · simp [hin]

/-- R101 item 3: reflect reads no bit of its argument from n on. -/
theorem reflect_and_mask (v : Word) {n : Nat} (hn : n ≤ 64) : reflect (v &&& mask n) n = reflect v n := by
  apply BitVec.eq_of_getLsbD_eq
  intro i hi
  rw [getLsbD_reflect, getLsbD_reflect, BitVec.getLsbD_and, getLsbD_mask]
  by_cases hin : i < n
  · simp [show n - 1 - i < 64 by omega, show n - 1 - i < n by omega]
  · simp [hin]

/-- R101 item 4. -/
theorem reflect_xor (a b : Word) (n : Nat) : reflect (a ^^^ b) n = reflect a n ^^^ reflect b n := by
  apply BitVec.eq_of_getLsbD_eq
  intro i hi
  simp only [getLsbD_reflect, BitVec.getLsbD_xor, Bool.and_xor_distrib_left]

/-- R101 item 5: over one bit, bit 0 stays where it is. -/
theorem reflect_one (v : Word) : reflect v 1 = v &&& 1 := by
  have hone : (1 : Word) = mask 1 := rfl
  rw [hone]
  apply BitVec.eq_of_getLsbD_eq
  intro i hi
  rw [getLsbD_reflect, BitVec.getLsbD_and, getLsbD_mask]
  by_cases hi0 : i = 0
  · subst hi0; simp
  · simp [hi0]

/-- Settles O27: the five items of R101, each by comparing bits. -/
theorem reflectionProperties : Obligations.ReflectionProperties := fun a b n _ h64 =>
  ⟨reflect_lt a n, reflect_reflect a h64, (reflect_and_mask a h64).symm, reflect_xor a b n, reflect_one a⟩

end Sys2Proof.Machine

/-! ## Construction and the table (spec/41_construction.md) -/

namespace Sys2Proof.Machine

/-- R114: the value lies under `mask(WIDTH)`. -/
theorem exceedsMask_eq_false {width : BitVec 7} {v : Word} :
    exceedsMask width v = false ↔ v.toNat < 2 ^ width.toNat := by
  rw [exceedsMask, decide_eq_false_iff_not, Nat.not_lt, Nat.le_sub_one_iff_lt (Nat.two_pow_pos _)]

/-- R113: the widths that the block admits. -/
theorem widthIllegal_eq_false {regBits : RegBits} {width : BitVec 7} :
    widthIllegal regBits width = false ↔ 1 ≤ width.toNat ∧ width.toNat ≤ 64 ∧ width.toNat ≤ regBits.toNat := by
  simp only [widthIllegal, Bool.or_eq_false_iff, decide_eq_false_iff_not]
  omega

/-- R113, R114: the configurations that the block accepts. -/
theorem cfgIllegal_eq_false {regBits : RegBits} {width : BitVec 7} {poly init xorout : Word} :
    cfgIllegal regBits width poly init xorout = false ↔
      1 ≤ width.toNat ∧ width.toNat ≤ 64 ∧ width.toNat ≤ regBits.toNat ∧
      poly.toNat < 2 ^ width.toNat ∧ init.toNat < 2 ^ width.toNat ∧ xorout.toNat < 2 ^ width.toNat := by
  simp only [cfgIllegal, Bool.or_eq_false_iff, widthIllegal_eq_false, exceedsMask_eq_false, and_assoc]

/-- CFG ends with code 0 exactly when the checks of R113 and R114 pass. -/
theorem execCfg_last_eq_zero {width : BitVec 7} {refin refout : Bool} {poly init xorout : Word} {s t : State}
    (ht : execCfg width refin refout poly init xorout s = .next t) :
    statusLast t.status = 0 ↔ cfgIllegal s.params.regBits width poly init xorout = false := by
  rw [execCfg_eq] at ht
  obtain rfl := Host.Outcome.next.inj ht
  cases cfgIllegal s.params.regBits width poly init xorout <;> simp [ErrorCode.code]

/-- Settles O28: `execCfg_eq` on the side of R115, the engine being `Engine.ofCfg`. -/
theorem cfgBuildsTheEngine : Obligations.CfgBuildsTheEngine := by
  intro s width refin refout poly init xorout h1 h64 hreg hpoly hinit hxorout
  have hlegal := cfgIllegal_eq_false.mpr ⟨h1, h64, hreg, hpoly, hinit, hxorout⟩
  refine ⟨Engine.ofCfg width refin refout poly init xorout, ?_, rfl, rfl, rfl, rfl, rfl, rfl, fun i => ?_⟩
  · rw [exec, execCfg_eq, hlegal]
    rfl
  · exact Engine.entry_ofCfg width refin refout poly init xorout i

/-- Settles O30: the engine of `execCfg_accepted` is built from the operands alone. -/
theorem constructionIsDeterministic : Obligations.ConstructionIsDeterministic := by
  intro width refin refout poly init xorout
  refine ⟨fun s s' t t' ht hlast ht' hlast' => ?_, fun s t ht => ?_⟩
  · rw [execCfg_accepted ht hlast, execCfg_accepted ht' hlast', State.complete_eng, State.complete_eng]
  · exact (execCfg_last_eq_zero ht).trans cfgIllegal_eq_false

/-- R120: with an engine present TBLRD completes with the table entry in RESULT. -/
theorem exec_tblrd_of_engine {s : State} {e : Engine} (he : s.eng = some e) (index : BitVec 8) :
    exec (.tblrd index) s = .next
      ({ s with result := e.entry index }.complete .ok (Instr.tblrd index).header) := by
  rw [exec, execTblrd, requireEngine_eq_ok.mpr he, bind_ok, pure_eq_ok, command_ok]

/-- Settles O32: under the invariant the entry read is that of `buildTable`. -/
theorem tblrdReadsTheTable : Obligations.TblrdReadsTheTable := by
  intro s e index hs he
  obtain ⟨-, -, -, htbl⟩ := hs.engine e he
  have hengV : s.engV = true := by rw [State.engV, he, Option.isSome_some]
  rw [exec_tblrd_of_engine he, entry_of_buildTable htbl, tableEntry, State.complete, ← hengV]
  rfl

/-- R121 item 3: the table is linear, since the bit step is. -/
theorem tableEntry_xor (p : Word) (a b : Byte) : tableEntry p (a ^^^ b) = tableEntry p a ^^^ tableEntry p b := by
  rw [tableEntry, BitVec.setWidth_xor, bitSteps_xor, tableEntry, tableEntry]

/-- R121 item 4: seven steps shift the single bit of 0x80 down to bit 0, and the eighth takes in the polynomial. -/
theorem tableEntry_top_bit (p : Word) : tableEntry p 0x80 = p := by
  calc tableEntry p 0x80
      = bitStep p (bitSteps p 7 (BitVec.twoPow 64 7)) := bitSteps_add p 7 1 _
    _ = bitStep p 1 := congrArg (bitStep p) (bitSteps_bit p 7 true (by decide))
    _ = p := by simp [bitStep]

/-- Settles O33: the bound of `tableEntry_lt`, linearity, and the two entries computed step by step. -/
theorem tableProperties : Obligations.TableProperties := fun p _ a b _ _ hp =>
  ⟨bitSteps_zero p 8, tableEntry_lt hp a, tableEntry_xor p a b, tableEntry_top_bit p⟩

end Sys2Proof.Machine

/-! ## The tail unit (spec/42_bit_serial.md) -/

namespace Sys2Proof.Machine

/-- Settles O34: `bbbUpdate_eq_serialFold`, whose induction feeds bit k after the first k steps, by linearity. -/
theorem tailUnitIsBitSerial : Obligations.TailUnitIsBitSerial := fun e r b _ h1 h8 =>
  bbbUpdate_eq_serialFold e r b ⟨h1, h8⟩

/-- R133: outside 1..8 the tail unit faults. -/
theorem bbbUpdate_of_not_range {k : Nat} (hk : ¬ (1 ≤ k ∧ k ≤ 8)) (e : Engine) (r : Word) (b : Byte) :
    bbbUpdate e r b k = .error (.model .tailBitCount) := if_neg hk

/-- Settles O35: no bit count admitted by `bbbUpdate` is 0 or above 8. -/
theorem tailUnitFaultsOutsideItsRange : Obligations.TailUnitFaultsOutsideItsRange := fun e r b k hk =>
  bbbUpdate_of_not_range (by omega) e r b

/-- Folding all eight bits of a byte is the serial fold of its data bits. -/
theorem bbbUpdate_eight (e : Engine) (r : Word) (b : Byte) :
    bbbUpdate e r b 8 = .ok (serialFold e.rpoly r (byteBits e.rin b)) :=
  bbbUpdate_eq_serialFold e r b ⟨by decide, le_rfl⟩

/-- R60: data bit j of the continuation byte is data bit k + j of the byte it continues. -/
theorem dataBit_continuation (rin : Bool) (b : Byte) {k j : Nat} (h : k + j < 8) :
    dataBit rin (if rin then b >>> k else b <<< k) j = dataBit rin b (k + j) := by
  cases rin with
  | true => exact BitVec.getLsbD_ushiftRight b k j
  | false =>
    have hpos : 7 - j - k = 7 - (k + j) := by omega
    change (b <<< k).getLsbD (7 - j) = b.getLsbD (7 - (k + j))
    rw [BitVec.getLsbD_shiftLeft, hpos, decide_eq_true (by omega : 7 - j < 8),
      decide_eq_false (by omega : ¬ 7 - j < k), Bool.not_false, Bool.true_and, Bool.true_and]

/-- R60: the data bits of a byte are its first k and the first 8 - k of the continuation byte. -/
theorem byteBits_split (rin : Bool) (b : Byte) {k : Nat} (hk : k ≤ 8) :
    byteBits rin b =
      (byteBits rin b).take k ++ (byteBits rin (if rin then b >>> k else b <<< k)).take (8 - k) := by
  have hcont : (List.range (8 - k)).map (dataBit rin (if rin then b >>> k else b <<< k)) =
      (List.range (8 - k)).map fun j => dataBit rin b (k + j) :=
    List.map_congr_left fun j hj => dataBit_continuation rin b (by have := List.mem_range.mp hj; omega)
  have hrange : List.range 8 = List.range k ++ (List.range (8 - k)).map (k + ·) := by
    rw [← List.range_add, Nat.add_sub_cancel' hk]
  rw [take_byteBits rin b hk, take_byteBits _ _ (Nat.sub_le 8 k), hcont, byteBits, hrange, List.map_append,
    List.map_map]
  rfl

/-- Settles O36: each call is a serial fold, and the bits of the two parts are those of the byte (`byteBits_split`). -/
theorem splitByteContinues : Obligations.SplitByteContinues := by
  intro e r b k h1 h7
  refine ⟨_, _, bbbUpdate_eq_serialFold e r b ⟨h1, by omega⟩,
    bbbUpdate_eq_serialFold e _ _ ⟨by omega, Nat.sub_le 8 k⟩, ?_⟩
  rw [bbbUpdate_eight, ← serialFold_append, ← byteBits_split e.rin b (by omega)]

/-- Settles O37: both sides are the serial fold of the eight data bits. -/
theorem tableFoldAgreesWithTailUnit : Obligations.TableFoldAgreesWithTailUnit := fun e r b htbl => by
  rw [bbbUpdate_eight, foldByte_eq_serialFold htbl]

/-- R135: the tail unit depends on the first k data bits of the byte only. -/
theorem bbbUpdate_congr {e : Engine} {b b' : Byte} {k : Nat}
    (h : ∀ j < k, j < 8 → dataBit e.rin b j = dataBit e.rin b' j) (r : Word) :
    bbbUpdate e r b k = bbbUpdate e r b' k := by
  by_cases hk : 1 ≤ k ∧ k ≤ 8
  · have hbits : (byteBits e.rin b).take k = (byteBits e.rin b').take k := by
      rw [take_byteBits _ _ hk.2, take_byteBits _ _ hk.2]
      refine List.map_congr_left fun j hj => ?_
      have hjk := List.mem_range.mp hj
      exact h j hjk (hjk.trans_le hk.2)
    rw [bbbUpdate_eq_serialFold e r b hk, bbbUpdate_eq_serialFold e r b' hk, hbits]
  · rw [bbbUpdate_of_not_range hk, bbbUpdate_of_not_range hk]

/-- Settles O38: in either bit order the bits on which the bytes agree are the first k data bits. -/
theorem partialByteDontCareBits : Obligations.PartialByteDontCareBits := by
  intro e r b b' k hlow hhigh
  refine bbbUpdate_congr (fun j hjk hj8 => ?_) r
  unfold dataBit
  cases hrin : e.rin with
  | true => exact hlow hrin j hjk
  | false => exact hhigh hrin (7 - j) (by omega) (by omega)

end Sys2Proof.Machine

/-! ## UPD and UPDB on an open session (spec/43_table_update.md R140 to R145, spec/44_session.md R151, R152, R155) -/

namespace Sys2Proof.Machine

/-- R145: a bit length passes exactly when it does not exceed the buffer; every negative one passes. -/
theorem bitLengthTooLong_eq_false {bl : Int} {len : Word} :
    bitLengthTooLong bl len = false ↔ bl ≤ 8 * (len.toNat : Int) := by
  simp only [bitLengthTooLong, Bool.and_eq_false_iff, decide_eq_false_iff_not]
  omega

/-- R55: the buffer lies in DMEM. -/
theorem bufferOutside_eq_false {memSize : Nat} {addr len : Word} :
    bufferOutside memSize addr len = false ↔ addr.toNat + len.toNat ≤ memSize := by
  rw [bufferOutside, decide_eq_false_iff_not, Nat.not_lt]

/-- R140: a negative bit length and the bit length 8 * LEN take the whole buffer. -/
theorem usedBits_wholeBuffer {bl : Int} {len : Word} (h : bl < 0 ∨ bl = 8 * (len.toNat : Int)) :
    usedBits bl len = usedBits wholeBuffer len := by
  have hwhole : usedBits wholeBuffer len = 8 * len.toNat := rfl
  rw [hwhole, usedBits]
  split <;> omega

/-- R143 item 1: such a bit length takes the message bits of the commands without a BITLEN operand. -/
theorem State.messageBits_wholeBuffer {bl : Int} {len : Word} (h : bl < 0 ∨ bl = 8 * (len.toNat : Int)) (s : State)
    (rin : Bool) (addr : Word) : s.messageBits rin addr len bl = s.messageBits rin addr len wholeBuffer := by
  rw [State.messageBits, usedBits_wholeBuffer h, State.messageBits]

/-- R31, R184: under the invariant every open session passes the session check. -/
theorem State.Inv.requireSession {s : State} (hs : s.Inv) {sid : SessionIndex} {r : Word}
    (hr : s.session sid = some r) : s.requireSession sid = .ok r :=
  requireSession_eq_ok.mpr ⟨(hs.session sid r hr).1, hr⟩

/-- R184: a session that passed the check passes it with the register written to it (R151). -/
theorem State.requireSession_setSession {s : State} {sid : SessionIndex} {r : Word} (hr : s.requireSession sid = .ok r)
    (r' : Word) : (s.setSession sid r').requireSession sid = .ok r' :=
  requireSession_eq_ok.mpr ⟨(requireSession_eq_ok.mp hr).1, State.session_setSession_same s sid r'⟩

section
variable {s : State} {e : Engine} {sid : SessionIndex} {r : Word} (heng : s.requireEngine = .ok e)
  (htbl : e.tbl = buildTable e.rpoly) (hr : s.requireSession sid = .ok r)
include heng htbl hr

/-- R151: UPD with an engine and an open session: the check of R55, then the serial fold of the whole buffer. -/
theorem exec_upd_eq (addr len : Word) :
    exec (.upd sid addr len) s = .next
      (if bufferOutside s.params.memSize addr len then s.complete .accessFault (Instr.upd sid addr len).header
      else (s.setSession sid (serialFold e.rpoly r (s.messageBits e.rin addr len wholeBuffer))).complete .ok
        (Instr.upd sid addr len).header) := by
  simp only [exec, execUpd, heng, hr, bind_ok]
  cases hmem : bufferOutside s.params.memSize addr len with
  | true => rfl
  | false => simp [tableUpdate_eq_serialFold htbl (bl := wholeBuffer) rfl hmem]

/-- R152: UPDB with an engine and an open session: the checks of R145 and R55, then the serial fold of the first
BITLEN bits. -/
theorem exec_updb_eq (addr len bitlen : Word) :
    exec (.updb sid addr len bitlen) s = .next
      (if bitLengthTooLong (sint64 bitlen) len then
        s.complete .bitLengthOutOfRange (Instr.updb sid addr len bitlen).header
      else if bufferOutside s.params.memSize addr len then
        s.complete .accessFault (Instr.updb sid addr len bitlen).header
      else (s.setSession sid (serialFold e.rpoly r (s.messageBits e.rin addr len (sint64 bitlen)))).complete .ok
        (Instr.updb sid addr len bitlen).header) := by
  simp only [exec, execUpdb, heng, hr, bind_ok]
  cases hbl : bitLengthTooLong (sint64 bitlen) len with
  | true => rfl
  | false =>
    cases hmem : bufferOutside s.params.memSize addr len with
    | true => rfl
    | false => simp [tableUpdate_eq_serialFold htbl hbl hmem]

/-- R155, R185: a UPDB that ends with code 0 passed both checks, and the next command finds the same engine and the
session open at the serial fold. -/
theorem exec_updb_accepted {addr len bitlen : Word} {t : State} (ht : exec (.updb sid addr len bitlen) s = .next t)
    (hlast : statusLast t.status = 0) :
    t.requireEngine = .ok e ∧
      t.requireSession sid = .ok (serialFold e.rpoly r (s.messageBits e.rin addr len (sint64 bitlen))) := by
  rw [exec_updb_eq heng htbl hr] at ht
  obtain rfl := Host.Outcome.next.inj ht
  cases hbl : bitLengthTooLong (sint64 bitlen) len with
  | true => simp [hbl, ErrorCode.code] at hlast
  | false =>
    cases hmem : bufferOutside s.params.memSize addr len with
    | true => simp [hbl, hmem, ErrorCode.code] at hlast
    | false => exact ⟨heng, State.requireSession_setSession hr _⟩

end

/-- Settles O42: both commands pass their checks and fold the same message bits, and a header is recorded only with a
code other than 0. -/
theorem updbWholeBufferIsUpd : Obligations.UpdbWholeBufferIsUpd := by
  intro s e sid r addr len bitlen hs heng hr hmem hwhole
  obtain ⟨-, -, -, htbl⟩ := hs.engine e heng
  have he := requireEngine_eq_ok.mpr heng
  have hopen := hs.requireSession hr
  have hbl : bitLengthTooLong (sint64 bitlen) len = false := bitLengthTooLong_eq_false.mpr (by omega)
  rw [exec_updb_eq he htbl hopen, exec_upd_eq he htbl hopen, hbl, bufferOutside_eq_false.mpr hmem,
    State.messageBits_wholeBuffer hwhole]
  rfl

/-- Settles O45: each UPDB is a serial fold, the second from the register that the first leaves, and neither check looks
at what DMEM holds. -/
theorem chunksConcatenate : Obligations.ChunksConcatenate := by
  intro s t u e sid r a₁ l₁ b₁ a₂ l₂ b₂ m hs heng hr ht htlast hu hulast
  obtain ⟨-, -, -, htbl⟩ := hs.engine e heng
  have he := requireEngine_eq_ok.mpr heng
  obtain ⟨he₁, hopen₁⟩ := exec_updb_accepted he htbl (hs.requireSession hr) ht htlast
  obtain ⟨-, hopen₂⟩ := exec_updb_accepted (s := t.withDmem m) he₁ htbl hopen₁ hu hulast
  rw [(requireSession_eq_ok.mp hopen₂).2, serialFold_append]
  rfl

end Sys2Proof.Machine

/-! ## Session commands that end with code 0 (spec/44_session.md R150 to R155, R160, R161) -/

namespace Sys2Proof.Machine

/-- R191: with an engine present, the recording of code 0 writes STATUS only. -/
theorem State.complete_ok_of_engine {s : State} {e : Engine} (heng : s.eng = some e) (h : Header) :
    s.complete .ok h = { s with status := recordStatus s.status .ok true } := by
  have hengV : s.engV = true := by rw [State.engV, heng, Option.isSome_some]
  rw [State.complete, hengV, if_pos rfl]

/-- Settles O39: both checks pass, and `setSession` is SNEW's one effect. -/
theorem snewOpensTheSession : Obligations.SnewOpensTheSession := by
  intro s e sid heng hsid
  have hcheck : s.noSuchSession sid = false := decide_eq_false (Nat.not_le.mpr hsid)
  rw [exec, execSnew, requireEngine_eq_ok.mpr heng, hcheck, raiseIf_false, bind_ok, bind_ok, pure_eq_ok, command_ok,
    State.complete_ok_of_engine (s := s.setSession sid e.rinit) heng]
  rfl

/-- Settles O40: `exec_upd_eq` with a buffer inside DMEM. -/
theorem updIsBitSerial : Obligations.UpdIsBitSerial := by
  intro s e sid r addr len hs heng hr hmem
  obtain ⟨-, -, -, htbl⟩ := hs.engine e heng
  rw [exec_upd_eq (requireEngine_eq_ok.mpr heng) htbl (hs.requireSession hr), bufferOutside_eq_false.mpr hmem,
    State.complete_ok_of_engine (s := s.setSession sid _) heng]
  rfl

/-- Settles O41: `exec_updb_eq` with a bit length and a buffer that pass both checks. -/
theorem updbIsBitSerial : Obligations.UpdbIsBitSerial := by
  intro s e sid r addr len bitlen hs heng hr hbl hmem
  obtain ⟨-, -, -, htbl⟩ := hs.engine e heng
  rw [exec_updb_eq (requireEngine_eq_ok.mpr heng) htbl (hs.requireSession hr), bitLengthTooLong_eq_false.mpr hbl,
    bufferOutside_eq_false.mpr hmem, State.complete_ok_of_engine (s := s.setSession sid _) heng]
  rfl

/-- R160: the residue unit answers the register as the variant presents it, and keeps it below 2^W. -/
theorem residueOf_presents {e : Engine} {r : Word} (hw : 1 ≤ e.w.toNat ∧ e.w.toNat ≤ 64)
    (hr : r.toNat < 2 ^ e.w.toNat) :
    ∃ v, residueOf e r = .ok v ∧ Presents e r v ∧ v.toNat < 2 ^ e.w.toNat := by
  cases hrout : e.rout with
  | true =>
    have hv : residueOf e r = .ok r := by rw [residueOf, if_pos hrout]
    exact ⟨r, hv, fun j _ => by rw [if_pos hrout], hr⟩
  | false =>
    have hv : residueOf e r = .ok (reflect r e.w.toNat) := by
      rw [residueOf, hrout]
      exact reflectUnit_eq_ok.mpr ⟨hw, rfl⟩
    refine ⟨_, hv, fun j hj => ?_, reflect_lt r e.w.toNat⟩
    rw [getLsbD_reflect, decide_eq_true hj, Bool.true_and, hrout]
    rfl

/-- R38, R160: under the invariant the register of an open session has a residue. -/
theorem State.Inv.residueOf_session {s : State} (hs : s.Inv) {e : Engine} (heng : s.eng = some e) {sid : SessionIndex}
    {r : Word} (hr : s.session sid = some r) :
    ∃ v, residueOf e r = .ok v ∧ Presents e r v ∧ v.toNat < 2 ^ e.w.toNat := by
  obtain ⟨⟨h1, h64, -⟩, -⟩ := hs.engine e heng
  obtain ⟨-, e', heng', hlt⟩ := hs.session sid r hr
  obtain rfl := Option.some.inj (heng.symm.trans heng')
  exact residueOf_presents ⟨h1, h64⟩ hlt

/-- Settles O43: both checks pass, and RESULT is the residue. -/
theorem resAnswersTheResidue : Obligations.ResAnswersTheResidue := by
  intro s e sid r hs heng hr
  obtain ⟨v, hv, hpresents, -⟩ := hs.residueOf_session heng hr
  refine ⟨v, hpresents, ?_⟩
  rw [exec, execRes, requireEngine_eq_ok.mpr heng, bind_ok, hs.requireSession hr, bind_ok, hv, bind_ok, pure_eq_ok,
    command_ok, State.complete_ok_of_engine (s := { s with result := v }) heng]

/-- Settles O44: RESULT is the residue combined with ENG.XOROUT, and both are below 2^W under R38 item 1. -/
theorem finAnswersTheFinalCrc : Obligations.FinAnswersTheFinalCrc := by
  intro s e sid r hs heng hr
  obtain ⟨-, ⟨-, -, hxorout⟩, -⟩ := hs.engine e heng
  obtain ⟨v, hv, hpresents, hlt⟩ := hs.residueOf_session heng hr
  refine ⟨v, hpresents, ?_, hlt, ?_⟩
  · have hfinal : finalOf e r = .ok (v ^^^ e.xorout) := by rw [finalOf, hv, bind_ok, pure_eq_ok]
    rw [exec, execFin, requireEngine_eq_ok.mpr heng, bind_ok, hs.requireSession hr, bind_ok, hfinal, bind_ok,
      pure_eq_ok, command_ok, State.complete_ok_of_engine (s := { s with result := v ^^^ e.xorout }) heng]
  · rw [BitVec.toNat_xor]
    exact Nat.xor_lt_two_pow hlt hxorout

/-- R54: the bytes of a buffer are those of its first piece and then those of the rest. -/
theorem State.bufferBytes_append (s : State) {a l₁ l₂ : Word} (haddr : a.toNat + l₁.toNat < 2 ^ 64)
    (hlen : l₁.toNat + l₂.toNat < 2 ^ 64) :
    s.bufferBytes a (l₁ + l₂) = s.bufferBytes a l₁ ++ s.bufferBytes (a + l₁) l₂ := by
  simp only [State.bufferBytes, BitVec.toNat_add_of_lt haddr, BitVec.toNat_add_of_lt hlen, List.range_add,
    List.map_append, List.map_map, Function.comp_def, Nat.add_assoc]

/-- R140: without a BITLEN operand the message bits are all data bits of the buffer. -/
theorem State.messageBits_wholeBuffer_eq (s : State) (rin : Bool) (a len : Word) :
    s.messageBits rin a len wholeBuffer = (s.bufferBytes a len).flatMap (byteBits rin) := by
  refine List.take_of_length_le (Nat.le_of_eq ?_)
  simp [List.length_flatMap, byteBits, State.bufferBytes, usedBits, wholeBuffer, Function.comp_def, Nat.mul_comm]

/-- R155: the message bits of a buffer are those of its two pieces. -/
theorem State.messageBits_append (s : State) (rin : Bool) {a l₁ l₂ : Word} (haddr : a.toNat + l₁.toNat < 2 ^ 64)
    (hlen : l₁.toNat + l₂.toNat < 2 ^ 64) :
    s.messageBits rin a (l₁ + l₂) wholeBuffer =
      s.messageBits rin a l₁ wholeBuffer ++ s.messageBits rin (a + l₁) l₂ wholeBuffer := by
  simp only [State.messageBits_wholeBuffer_eq, State.bufferBytes_append s haddr hlen, List.flatMap_append]

/-- R151: what an UPD of a buffer inside DMEM leaves for the next command: the same engine, parameters and message bits
of every buffer, and the session open at the serial fold. -/
theorem exec_upd_accepted {s : State} {e : Engine} {sid : SessionIndex} {r addr len : Word}
    (heng : s.requireEngine = .ok e) (htbl : e.tbl = buildTable e.rpoly) (hr : s.requireSession sid = .ok r)
    (hmem : addr.toNat + len.toNat ≤ s.params.memSize) :
    ∃ t, exec (.upd sid addr len) s = .next t ∧ t.requireEngine = .ok e ∧ t.params = s.params ∧
      t.messageBits = s.messageBits ∧
      t.requireSession sid = .ok (serialFold e.rpoly r (s.messageBits e.rin addr len wholeBuffer)) := by
  refine ⟨_, exec_upd_eq heng htbl hr addr len, ?_⟩
  rw [bufferOutside_eq_false.mpr hmem]
  exact ⟨heng, rfl, rfl, State.requireSession_setSession hr _⟩

/-- Settles O46: the second UPD folds on from the register the first leaves, and the pieces' message bits make up the
buffer's. -/
theorem twoPiecesEqualOne : Obligations.TwoPiecesEqualOne := by
  intro s e sid r a l₁ l₂ hs heng hr hmem haddr hlen
  obtain ⟨-, -, -, htbl⟩ := hs.engine e heng
  have he := requireEngine_eq_ok.mpr heng
  have hopen := hs.requireSession hr
  have hnext : (a + l₁).toNat = a.toNat + l₁.toNat := BitVec.toNat_add_of_lt haddr
  have hsum : (l₁ + l₂).toNat = l₁.toNat + l₂.toNat := BitVec.toNat_add_of_lt hlen
  obtain ⟨t, ht, het, hparams, hbits, hopent⟩ := exec_upd_accepted (addr := a) (len := l₁) he htbl hopen (by omega)
  obtain ⟨u, hu, -, -, -, hopenu⟩ :=
    exec_upd_accepted (addr := a + l₁) (len := l₂) het htbl hopent (by rw [hparams]; omega)
  obtain ⟨w, hw, -, -, -, hopenw⟩ := exec_upd_accepted (addr := a) (len := l₁ + l₂) he htbl hopen (by omega)
  refine ⟨t, u, w, ht, hu, hw, ?_⟩
  rw [(requireSession_eq_ok.mp hopenu).2, (requireSession_eq_ok.mp hopenw).2, hbits,
    State.messageBits_append s e.rin haddr hlen, serialFold_append]

end Sys2Proof.Machine

/-! ## One-shot commands (spec/45_oneshot.md R170 to R172) -/

namespace Sys2Proof.Machine

/-- R160: a register is presented as one value only. -/
theorem Presents.unique {e : Engine} {r v v' : Word} (hv : Presents e r v) (hv' : Presents e r v') : v = v' :=
  BitVec.eq_of_getLsbD_eq fun j hj => (hv j hj).trans (hv' j hj).symm

/-- R161: the output stage answers the register as the variant presents it, combined with ENG.XOROUT. -/
theorem finalOf_presents {e : Engine} {r : Word} (hw : 1 ≤ e.w.toNat ∧ e.w.toNat ≤ 64) (hr : r.toNat < 2 ^ e.w.toNat) :
    ∃ v, Presents e r v ∧ finalOf e r = .ok (v ^^^ e.xorout) := by
  obtain ⟨v, hv, hpresents, -⟩ := residueOf_presents hw hr
  exact ⟨v, hpresents, by rw [finalOf, hv, bind_ok, pure_eq_ok]⟩

/-- R33: under the invariant the scratch register is empty already. -/
theorem State.Inv.dropOne_eq {s : State} (hs : s.Inv) : s.dropOne = s := by
  rw [State.dropOne, ← hs.scratch]

/-- R170, R171: after the checks of R145 and R55 the computation both commands share changes RESULT only: the final CRC
of the message bits folded from ENG.RINIT. -/
theorem State.Inv.oneShot_presents {s : State} (hs : s.Inv) {e : Engine} (heng : s.eng = some e) {addr len : Word}
    {bl : Int} (hbl : bitLengthTooLong bl len = false) (hmem : bufferOutside s.params.memSize addr len = false) :
    ∃ v, Presents e (serialFold e.rpoly e.rinit (s.messageBits e.rin addr len bl)) v ∧
      oneShot e addr len bl s = .ok { s with result := v ^^^ e.xorout } := by
  obtain ⟨⟨h1, h64, -⟩, ⟨-, hrinit, -⟩, -, htbl⟩ := hs.engine e heng
  have hfold := tableUpdate_eq_serialFold htbl hbl hmem e.rinit
  obtain ⟨v, hpresents, hfinal⟩ := finalOf_presents ⟨h1, h64⟩ (tableUpdate_lt (hs.engine e heng) hrinit hfold)
  refine ⟨v, hpresents, ?_⟩
  rw [oneShot_eq, hfold, bind_ok, hfinal, bind_ok, pure_eq_ok, hs.dropOne_eq]

/-- Settles O48: both checks pass (R140: the whole buffer is no bit length that R145 rejects), and the shared
computation writes RESULT. -/
theorem calcIsBitSerial : Obligations.CalcIsBitSerial := by
  intro s e addr len hs heng hmem
  have hbuf := bufferOutside_eq_false.mpr hmem
  obtain ⟨v, hpresents, hshot⟩ := hs.oneShot_presents heng (bl := wholeBuffer) rfl hbuf
  refine ⟨v, hpresents, ?_⟩
  rw [exec, execCalc, requireEngine_eq_ok.mpr heng, bind_ok, hbuf, raiseIf_false, bind_ok, hshot, command_ok,
    State.complete_ok_of_engine (s := { s with result := v ^^^ e.xorout }) heng]

/-- Settles O49: the checks of R183, R145 and R55 pass, and the shared computation writes RESULT. -/
theorem calcbIsBitSerial : Obligations.CalcbIsBitSerial := by
  intro s e addr len bitlen hs heng hbitlen hmem
  have hbl := bitLengthTooLong_eq_false.mpr hbitlen
  have hbuf := bufferOutside_eq_false.mpr hmem
  obtain ⟨v, hpresents, hshot⟩ := hs.oneShot_presents heng hbl hbuf
  refine ⟨v, hpresents, ?_⟩
  rw [exec, execCalcb, requireEngine_eq_ok.mpr heng, bind_ok, hbl, raiseIf_false, bind_ok, hbuf, raiseIf_false, bind_ok,
    hshot, command_ok, State.complete_ok_of_engine (s := { s with result := v ^^^ e.xorout }) heng]

/-- Settles O51: both commands present the fold of the same message bits, and a register is presented as one value
only. -/
theorem calcEqualsCalcbWholeBuffer : Obligations.CalcEqualsCalcbWholeBuffer := by
  intro s e addr len bitlen hs heng hmem hwhole
  obtain ⟨v, hv, hcalc⟩ := calcIsBitSerial s e addr len hs heng hmem
  obtain ⟨v', hv', hcalcb⟩ := calcbIsBitSerial s e addr len bitlen hs heng (by omega) hmem
  rw [State.messageBits_wholeBuffer hwhole] at hv'
  rw [hcalcb, hcalc, hv.unique hv']

/-- A command keeps the invariant: it is the packet it encodes to, submitted. -/
theorem exec_inv {i : Instr} {s t : State} (hs : s.Inv) (h : exec i s = .next t) : t.Inv := by
  refine runPacket_inv (p := encode i) hs ?_
  rw [runPacket, decodeOfEncode i]
  exact h

/-- Settles O50: SNEW opens the session at ENG.RINIT, UPDB folds the message bits into it, and FIN and CALCB present the
same register, which is presented as one value only. -/
theorem oneShotEqualsSession : Obligations.OneShotEqualsSession := by
  intro s e sid addr len bitlen hs heng hsid hbitlen hmem
  have hsnew := snewOpensTheSession s e sid heng hsid
  have hinv₁ := exec_inv hs hsnew
  have hupdb := updbIsBitSerial _ e sid e.rinit addr len bitlen hinv₁ heng (s.session_setSession_same sid _)
    hbitlen hmem
  have hinv₂ := exec_inv hinv₁ hupdb
  obtain ⟨v, hv, hfin, -⟩ := finAnswersTheFinalCrc _ e sid _ hinv₂ heng (State.session_setSession_same _ sid _)
  obtain ⟨v', hv', hcalcb⟩ := calcbIsBitSerial s e addr len bitlen hs heng hbitlen hmem
  refine ⟨_, _, _, _, hsnew, hupdb, hfin, hcalcb, ?_, statusLast_recordStatus .., statusLast_recordStatus ..⟩
  exact congrArg (· ^^^ e.xorout) (hv.unique hv')

end Sys2Proof.Machine

/-! ## The record of a packet in STATUS and ERRHDR (spec/10_state.md R35, spec/60_exceptions.md R182, R185, R191) -/

namespace Sys2Proof.Machine

/-- R181: `ok` alone has the number 0. -/
theorem ErrorCode.code_eq_zero {c : ErrorCode} : c.code = 0 ↔ c = .ok := by cases c <;> decide

/-- R191: the bit `STATUS[16 + c]` after the recording of a code c other than 0. -/
theorem getLsbD_recordStatus_self (st : BitVec 32) {c : ErrorCode} (hc : c.code ≠ 0) (v : Bool) :
    (recordStatus st c v).getLsbD (16 + c.code.toNat) = true := by
  rw [getLsbD_recordStatus, if_neg (by omega), if_neg (by omega), decide_eq_true ⟨hc, rfl⟩, Bool.or_true]

/-- R185, R191: a packet that ends with another code than 0 writes STATUS and ERRHDR. -/
theorem State.complete_failed (s : State) {c : ErrorCode} (hc : c ≠ .ok) (h : Header) :
    s.complete c h = { s with status := recordStatus s.status c s.eng.isSome, errhdr := h } := by
  rw [State.complete, if_neg hc, State.engV]

/-- R191: no effect of a command reaches ERRHDR; it is left to the recording. -/
theorem Effect.errhdr {s u : State} {i : Instr} (h : Effect s i u) : u.errhdr = s.errhdr := by
  cases h <;> rfl

/-- R71, R191: what one packet can do, recorded with the header submitted: an accepted packet is the packet of its
command. -/
theorem runPacket_recorded {p : Packet} {s t : State} (h : runPacket p s = .next t) :
    (∃ i u, Effect s i u ∧ t = u.complete .ok p.header) ∨ ∃ c, t = s.complete c p.header := by
  obtain ⟨i, hdec, hx⟩ | ht := runPacket_next h
  · obtain rfl := encodeOfDecode p i hdec
    obtain ⟨u, hu, ht⟩ | ht := exec_next hx
    · exact .inl ⟨i, u, hu, ht⟩
    · exact .inr ht
  · exact .inr ⟨_, ht⟩

/-- R191: every packet records one code, over the STATUS and ERRHDR from before and with ENG.V after its effects. -/
theorem runPacket_record {p : Packet} {s t : State} (h : runPacket p s = .next t) :
    ∃ c : ErrorCode, t.status = recordStatus s.status c t.engV ∧
      t.errhdr = if c = .ok then s.errhdr else p.header := by
  obtain ⟨i, u, hu, rfl⟩ | ⟨c, rfl⟩ := runPacket_recorded h
  · obtain ⟨-, -, hstatus⟩ := hu.frame
    exact ⟨.ok, by rw [State.complete_status, hstatus, State.complete_engV], hu.errhdr⟩
  · exact ⟨c, rfl, rfl⟩

/-- Settles O7: the decoder rejects the packet, which leaves the recording of code 1. -/
theorem stepRecordsAnIllegalPacket : Obligations.StepRecordsAnIllegalPacket := by
  intro s p hop hillegal
  have hrun : runPacket p s.advance = .next (s.advance.complete .illegalCommand p.header) := by
    rw [runPacket]
    cases hdec : decode p with
    | ok i => exact absurd ((decoderAcceptsExactlyTheOpcodeMap.1 p).mp ⟨i, hdec⟩) hillegal
    | error _ => rfl
  rw [step, hop]
  exact hrun.trans (congrArg Host.Outcome.next (s.advance.complete_failed (by decide) p.header))

/-- Settles O16: the code of `runPacket_record`, and STATUS bit by bit after its recording. -/
theorem everyPacketRecordsOneCode : Obligations.EveryPacketRecordsOneCode := by
  intro p s t ht
  obtain ⟨c, hstatus, herrhdr⟩ := runPacket_record ht
  refine ⟨c, ?_, ?_, ?_, fun hc => ?_, fun k hk hother => ?_⟩
  · rw [hstatus, statusLast_recordStatus]
  · rw [hstatus, statusEngv_recordStatus, State.engV]
  · simp only [herrhdr, ErrorCode.code_eq_zero]
  · rw [hstatus, getLsbD_recordStatus_self _ hc]
  · have hbit : ¬ (c.code ≠ 0 ∧ k = 16 + c.code.toNat) := fun ⟨hc, heq⟩ => hother hc heq
    rw [hstatus, getLsbD_recordStatus, if_neg (by omega), if_neg (by omega), decide_eq_false hbit, Bool.or_false]

/-- Settles O17: with effects LAST is 0; without, the recording of a code other than 0 is all there is. -/
theorem failedPacketChangesOnlyTheRecord : Obligations.FailedPacketChangesOnlyTheRecord := by
  intro p s t ht hlast
  obtain ⟨i, u, -, rfl⟩ | ⟨c, rfl⟩ := runPacket_recorded ht
  · exact absurd (statusLast_recordStatus ..) hlast
  · have hc : c ≠ .ok := by
      rintro rfl
      exact hlast (statusLast_recordStatus ..)
    rw [s.complete_failed hc]

/-- R35, R191: the recording of a code other than 0 sets its SEEN bit. -/
theorem statusSeen_recordStatus_self (st : BitVec 32) {c : ErrorCode} (hc : c.code ≠ 0) (v : Bool) :
    (statusSeen (recordStatus st c v)).getLsbD c.code.toNat = true := by
  have hle := c.code_le
  rw [statusSeen, BitVec.getLsbD_extractLsb', getLsbD_recordStatus_self st hc, Bool.and_true, decide_eq_true_iff]
  omega

/-- R78, R215: the STATUS after a step that executes a packet is the one the packet leaves. -/
theorem step_executes {s t : State} {op : HostOp} {p : Packet} (ht : step s = .next t) (hop : s.nextOp = some op)
    (hp : executedPacket op = some p) : ∃ s' u, runPacket p s' = .next u ∧ t.status = u.status := by
  rw [step, hop] at ht
  cases op with
  | submit q =>
    obtain rfl := Option.some.inj hp
    exact ⟨s.advance, t, ht, rfl⟩
  | submitRace q writes =>
    obtain rfl := Option.some.inj hp
    obtain ⟨-, u, hu, rfl⟩ := runRace_next ht
    exact ⟨_, u, hu, rfl⟩
  | read | write | readMem | reset | submitReset => cases hp

/-- Settles O19: a SEEN bit from before would stay set (R35), and a code other than 0 would have set one. -/
theorem seenZeroMeansNothingFailed : Obligations.SeenZeroMeansNothingFailed := by
  intro s t ht hnoreset hseen
  have hclear : ∀ k, (statusSeen t.status).getLsbD k ≠ true := fun k hk => by
    rw [show statusSeen t.status = 0#8 from hseen, BitVec.getLsbD_zero] at hk
    cases hk
  refine ⟨BitVec.eq_of_getLsbD_eq fun k _ => ?_, fun op p hop hp => ?_⟩
  · rw [BitVec.ofNat_eq_ofNat, BitVec.getLsbD_zero, Bool.eq_false_iff]
    exact fun hk => hclear k (seenBitsAreSticky s t k ht hnoreset hk)
  · obtain ⟨s', u, hu, hstatus⟩ := step_executes ht hop hp
    obtain ⟨c, hrecord, -⟩ := runPacket_record hu
    rw [hstatus, hrecord] at hclear
    rw [hstatus, hrecord, statusLast_recordStatus]
    by_contra hc
    exact hclear _ (statusSeen_recordStatus_self _ hc _)

end Sys2Proof.Machine

/-! ## STATUS and ERRHDR are not inputs of a packet (spec/60_exceptions.md R192) -/

namespace Sys2Proof.Machine

/-- The state with another record of the packets before. -/
def State.withRecord (s : State) (st : BitVec 32) (h : Header) : State := { s with status := st, errhdr := h }

/-- R192: the two states agree but for STATUS and ERRHDR, and the last code recorded is the same. -/
def SameButRecord (t t' : State) : Prop :=
  t' = { t with status := t'.status, errhdr := t'.errhdr } ∧ statusLast t'.status = statusLast t.status

/-- The recording of one code (R191) over another record. -/
theorem State.complete_withRecord (s : State) (st : BitVec 32) (h : Header) (c : ErrorCode) (hdr : Header) :
    SameButRecord (s.complete c hdr) ((s.withRecord st h).complete c hdr) := by
  refine ⟨rfl, ?_⟩
  rw [State.complete_status, statusLast_recordStatus, State.complete_status, statusLast_recordStatus]

/-- A command whose body only carries the record along does the same over another record. -/
theorem command_withRecord {hdr : Header} {s t : State} {st : BitVec 32} {h : Header} {body body' : Except Stop State}
    (hbody : body' = (fun u => u.withRecord st h) <$> body) (ht : command hdr s body = .next t) :
    ∃ t', command hdr (s.withRecord st h) body' = .next t' ∧ SameButRecord t t' := by
  subst hbody
  obtain ⟨u, rfl, rfl⟩ | ⟨c, rfl, rfl⟩ := command_next ht
  · exact ⟨_, rfl, u.complete_withRecord st h .ok hdr⟩
  · exact ⟨_, rfl, s.complete_withRecord st h c hdr⟩

/-- The computation CALC and CALCB share carries the record along. -/
theorem oneShot_withRecord (e : Engine) (addr len : Word) (bl : Int) (s : State) (st : BitVec 32) (h : Header) :
    oneShot e addr len bl (s.withRecord st h) = (fun u => u.withRecord st h) <$> oneShot e addr len bl s := by
  simp only [oneShot, map_bind, map_pure]
  rfl

/-- R192: no command looks at STATUS or ERRHDR. After moving the change of the record into each body the two bodies
agree by computation. -/
theorem exec_withRecord {i : Instr} {s t : State} (st : BitVec 32) (h : Header) (ht : exec i s = .next t) :
    ∃ t', exec i (s.withRecord st h) = .next t' ∧ SameButRecord t t' := by
  cases i with
  | refl | cfg | tblrd | snew | upd | updb | fin | res =>
    refine command_withRecord ?_ ht
    simp only [map_bind, map_pure]
    rfl
  | calcBytes | calcb =>
    refine command_withRecord ?_ ht
    simp only [map_bind, ← oneShot_withRecord]
    rfl

/-- Settles O20: an accepted packet by `exec_withRecord`, and a rejected one has no input at all but its header. -/
theorem recordDoesNotInfluencePackets : Obligations.RecordDoesNotInfluencePackets := by
  intro p s t st h ht
  rw [runPacket] at ht ⊢
  cases hdec : decode p with
  | ok i =>
    rw [hdec] at ht
    exact exec_withRecord st h ht
  | error _ =>
    rw [hdec] at ht
    obtain rfl := Host.Outcome.next.inj ht
    exact ⟨_, rfl, s.complete_withRecord st h .illegalCommand p.header⟩

end Sys2Proof.Machine

/-! ## Every command and every step completes (spec/60_exceptions.md R200, spec/70_reset_and_hazards.md R220) -/

namespace Sys2Proof.Machine

/-- R200: the part of a command answers a value or raises a code; it meets no model fault. -/
def MeetsNoFault {α : Type} (x : Except Stop α) : Prop := ∀ f, x ≠ .error (.model f)

/-- An answer is no fault. -/
theorem MeetsNoFault.ok {α : Type} {x : Except Stop α} {a : α} (h : x = .ok a) : MeetsNoFault x := by
  subst h
  exact nofun

/-- The end of a body is one. -/
theorem MeetsNoFault.pure {α : Type} (a : α) : MeetsNoFault (Pure.pure a : Except Stop α) := .ok rfl

/-- The rest of a chain of checks is met only with a value that its first part answers. -/
theorem MeetsNoFault.bind {α β : Type} {x : Except Stop α} {f : α → Except Stop β} (hx : MeetsNoFault x)
    (hf : ∀ a, x = .ok a → MeetsNoFault (f a)) : MeetsNoFault (x >>= f) := by
  intro flt hbind
  obtain hbad | ⟨a, ha, hbad⟩ := bind_eq_error.mp hbind
  · exact hx flt hbad
  · exact hf a ha flt hbad

/-- A check raises a code or passes. -/
theorem MeetsNoFault.raiseIf {bad : Bool} {c : ErrorCode} {β : Type} {f : Unit → Except Stop β}
    (hf : bad = false → MeetsNoFault (f ())) : MeetsNoFault (raiseIf bad c >>= f) := by
  cases bad with
  | true => exact nofun
  | false => exact hf rfl

/-- R183: the engine check raises a code or passes with the engine. -/
theorem MeetsNoFault.requireEngine {s : State} {β : Type} {f : Engine → Except Stop β}
    (hf : ∀ e, s.eng = some e → MeetsNoFault (f e)) : MeetsNoFault (s.requireEngine >>= f) := by
  refine .bind ?_ fun e he => hf e (requireEngine_eq_ok.mp he)
  rw [State.requireEngine]
  cases s.eng <;> exact nofun

/-- R184: the session check raises a code or passes with the register of an open session. -/
theorem MeetsNoFault.requireSession {s : State} {sid : SessionIndex} {β : Type} {f : Word → Except Stop β}
    (hf : ∀ r, s.session sid = some r → MeetsNoFault (f r)) : MeetsNoFault (s.requireSession sid >>= f) := by
  refine .bind ?_ fun r hr => hf r (requireSession_eq_ok.mp hr).2
  rw [State.requireSession]
  split
  · exact nofun
  · cases s.session sid <;> exact nofun

/-- A command whose body meets no model fault completes. -/
theorem MeetsNoFault.command {h : Header} {s : State} {body : Except Stop State} (hbody : MeetsNoFault body) :
    ∃ t, command h s body = .next t := by
  cases hout : Machine.command h s body with
  | next t => exact ⟨t, rfl⟩
  | fault f => exact absurd (command_fault hout) (hbody f)
  | refused q => exact absurd hout command_not_refused

/-- R140 to R145: after the checks of R145 and R55 the bulk unit meets no fault. -/
theorem State.Inv.tableUpdate_meetsNoFault {s : State} (hs : s.Inv) {e : Engine} (heng : s.eng = some e)
    {addr len : Word} {bl : Int} (hbl : bitLengthTooLong bl len = false)
    (hmem : bufferOutside s.params.memSize addr len = false) (r : Word) :
    MeetsNoFault (tableUpdate e s r addr len bl) := by
  obtain ⟨-, -, -, htbl⟩ := hs.engine e heng
  exact .ok (tableUpdate_eq_serialFold htbl hbl hmem r)

/-- R170, R171: after the same checks the computation CALC and CALCB share meets no fault. -/
theorem State.Inv.oneShot_meetsNoFault {s : State} (hs : s.Inv) {e : Engine} (heng : s.eng = some e)
    {addr len : Word} {bl : Int} (hbl : bitLengthTooLong bl len = false)
    (hmem : bufferOutside s.params.memSize addr len = false) : MeetsNoFault (oneShot e addr len bl s) := by
  obtain ⟨v, -, hshot⟩ := hs.oneShot_presents heng hbl hmem
  exact .ok hshot

/-- Settles O14: the checks raise codes only, and behind them the datapath meets a width in 1..64 (R38 item 1), a bit
count in 1..8 (R133) and addresses that exist (R55). -/
theorem everyCommandCompletes : Obligations.EveryCommandCompletes := by
  intro i s hs
  cases i with
  | cfg => exact ⟨_, execCfg_eq ..⟩
  | refl nbits value =>
    refine MeetsNoFault.command (.raiseIf fun hcheck => ?_)
    simp only [Bool.or_eq_false_iff, decide_eq_false_iff_not] at hcheck
    exact .bind (.ok (reflectUnit_eq_ok.mpr ⟨by omega, rfl⟩)) fun _ _ => .pure _
  | tblrd => exact MeetsNoFault.command (.requireEngine fun _ _ => .pure _)
  | snew => exact MeetsNoFault.command (.requireEngine fun _ _ => .raiseIf fun _ => .pure _)
  | upd =>
    exact MeetsNoFault.command (.requireEngine fun _ heng => .requireSession fun r _ => .raiseIf fun hmem =>
      .bind (hs.tableUpdate_meetsNoFault heng rfl hmem r) fun _ _ => .pure _)
  | updb =>
    exact MeetsNoFault.command (.requireEngine fun _ heng => .requireSession fun r _ => .raiseIf fun hbl =>
      .raiseIf fun hmem => .bind (hs.tableUpdate_meetsNoFault heng hbl hmem r) fun _ _ => .pure _)
  | fin =>
    refine MeetsNoFault.command (.requireEngine fun _ heng => .requireSession fun r hr => ?_)
    obtain ⟨v, hv, -⟩ := hs.residueOf_session heng hr
    exact .bind (.bind (.ok hv) fun _ _ => .pure _) fun _ _ => .pure _
  | res =>
    refine MeetsNoFault.command (.requireEngine fun _ heng => .requireSession fun r hr => ?_)
    obtain ⟨v, hv, -⟩ := hs.residueOf_session heng hr
    exact .bind (.ok hv) fun _ _ => .pure _
  | calcBytes =>
    exact MeetsNoFault.command (.requireEngine fun _ heng => .raiseIf fun hmem =>
      hs.oneShot_meetsNoFault heng rfl hmem)
  | calcb =>
    exact MeetsNoFault.command (.requireEngine fun _ heng => .raiseIf fun hbl => .raiseIf fun hmem =>
      hs.oneShot_meetsNoFault heng hbl hmem)

/-- R78, R200: every packet completes. -/
theorem runPacket_completes {s : State} (hs : s.Inv) (p : Packet) : ∃ t, runPacket p s = .next t := by
  rw [runPacket]
  cases decode p with
  | ok i => exact everyCommandCompletes i s hs
  | error _ => exact ⟨_, rfl⟩

/-- R215: a raced packet completes, too: the memory it sees meets the invariant. -/
theorem runRace_completes {s : State} (hs : s.Inv) (p : Packet) {writes : List (Word × Byte)}
    (haddr : ∀ w ∈ writes, w.1.toNat < s.params.memSize) : ∃ t, runRace p writes s = .next t := by
  have hexist : writes.all (fun w => s.addressExists w.1) = true :=
    List.all_eq_true.mpr fun w hw => decide_eq_true (haddr w hw)
  obtain ⟨hwf, hwithin⟩ := hs.hostWrites (hostWrites_drawBytes haddr s.draws)
  have hview : (s.raceView writes).Inv := hs.frame hwf hwithin _ _ _ _ _ _
  obtain ⟨u, hu⟩ := runPacket_completes hview p
  rw [runRace, if_pos hexist, hu]
  exact ⟨_, rfl⟩

/-- One operation of the host completes, if the DMEM addresses it names exist. -/
theorem perform_completes {s : State} (hs : s.Inv) {op : HostOp}
    (haddr : ∀ a ∈ hostAddresses op, a.toNat < s.params.memSize) : ∃ t, perform op s = .next t := by
  cases op with
  | submit p => exact runPacket_completes hs p
  | submitRace p writes => exact runRace_completes hs p fun w hw => haddr w.1 (List.mem_map_of_mem hw)
  | write a b => exact ⟨_, State.hostWrite_of_lt (haddr a (List.mem_singleton_self a)) b⟩
  | readMem a => exact ⟨_, if_pos (decide_eq_true (haddr a (List.mem_singleton_self a)))⟩
  | read | reset | submitReset => exact ⟨_, rfl⟩

/-- Settles O15: the step is the next operation, after the index went up by 1, which the invariant does not speak of. -/
theorem everyStepCompletes : Obligations.EveryStepCompletes := by
  intro s hs haddr
  obtain ⟨-, hstep⟩ | ⟨op, hop, hstep⟩ := step_cases s
  · exact ⟨s, hstep⟩
  · rw [hstep]
    exact perform_completes (hs.frame hs.dmem_wf hs.dmem_within _ _ _ _ _ _) (haddr op hop)

end Sys2Proof.Machine

/-! ## The checks in the order of detection (spec/60_exceptions.md R183 to R190) -/

namespace Sys2Proof.Machine

/-- R185, R191: a body that raises a code leaves a command no effect but the recording of it. -/
theorem command_raises {h : Header} {s : State} {c : ErrorCode} {body : Except Stop State} (hbody : body = raise c)
    (hc : c ≠ .ok := by decide) :
    command h s body = .next { s with status := recordStatus s.status c s.eng.isSome, errhdr := h } := by
  rw [hbody, command_raise, s.complete_failed hc]

/-- Settles O29: `execCfg_eq` on the side of R118. -/
theorem cfgRejectsBadParameters : Obligations.CfgRejectsBadParameters := by
  intro s width refin refout poly init xorout hbad
  have hillegal : cfgIllegal s.params.regBits width poly init xorout = true := by
    rw [← Bool.not_eq_false, cfgIllegal_eq_false]
    omega
  rw [exec, execCfg_eq, if_pos hillegal, s.complete_failed (by decide)]

/-- Settles O26: REFL's one check. -/
theorem reflOperandOutOfRange : Obligations.ReflOperandOutOfRange := by
  intro s nbits value hbad
  have hcheck : (decide (nbits.toNat < 1) || decide (64 < nbits.toNat)) = true := by
    rw [Bool.or_eq_true, decide_eq_true_iff, decide_eq_true_iff]
    omega
  refine command_raises ?_
  rw [hcheck, raiseIf_true, bind_raise]

/-- R183: without an engine a command that begins with the engine check ends with code 2. -/
theorem command_noEngine {h : Header} {s : State} (heng : s.eng = none) {f : Engine → Except Stop State} :
    command h s (s.requireEngine >>= f) =
      .next { s with status := recordStatus s.status .noEngine false, errhdr := h } := by
  have hcheck : s.requireEngine = raise .noEngine := by rw [State.requireEngine, heng]
  have hengV : s.eng.isSome = false := by rw [heng, Option.isSome_none]
  rw [command_raises (c := .noEngine) (by rw [hcheck, bind_raise]), hengV]

/-- R113, R114, R183: the codes of CFG are 0 and 4. -/
theorem execCfg_last {width : BitVec 7} {refin refout : Bool} {poly init xorout : Word} {s t : State}
    (ht : execCfg width refin refout poly init xorout s = .next t) :
    statusLast t.status = 0 ∨ statusLast t.status = 4 := by
  rw [execCfg_eq] at ht
  obtain rfl := Host.Outcome.next.inj ht
  split
  · exact .inr (statusLast_recordStatus ..)
  · exact .inl (statusLast_recordStatus ..)

/-- R103, R183, R188: the codes of REFL are 0 and 6. -/
theorem exec_refl_last {nbits : BitVec 7} {value : Word} {s t : State} (ht : exec (.refl nbits value) s = .next t) :
    statusLast t.status = 0 ∨ statusLast t.status = 6 := by
  by_cases hlegal : 1 ≤ nbits.toNat ∧ nbits.toNat ≤ 64
  · rw [exec_refl_legal s value hlegal.1 hlegal.2] at ht
    obtain rfl := Host.Outcome.next.inj ht
    exact .inl (statusLast_recordStatus ..)
  · rw [reflOperandOutOfRange s nbits value (by omega)] at ht
    obtain rfl := Host.Outcome.next.inj ht
    exact .inr (statusLast_recordStatus ..)

/-- Settles O21: all commands but CFG and REFL begin with the engine check, and those two have codes of their own. -/
theorem noEngineIsReported : Obligations.NoEngineIsReported := by
  refine ⟨fun i s heng hcfg hrefl => ?_, fun i s t hi ht => ?_⟩
  · cases i with
    | cfg => cases hcfg
    | refl n v => exact absurd rfl (hrefl n v)
    | tblrd | snew | upd | updb | fin | res | calcBytes | calcb => exact command_noEngine heng
  · obtain hcfg | ⟨n, v, rfl⟩ := hi
    · cases i with
      | cfg => obtain h | h := execCfg_last ht <;> simp [h]
      | _ => cases hcfg
    · obtain h | h := exec_refl_last ht <;> simp [h]

section
variable {h : Header} {s : State} {e : Engine} (heng : s.eng = some e)
include heng

/-- R190: with an engine a command ends as its body behind the engine check says. -/
theorem command_behindEngine {c : ErrorCode} {f : Engine → Except Stop State} (hbody : f e = raise c)
    (hc : c ≠ .ok := by decide) :
    command h s (s.requireEngine >>= f) = .next { s with status := recordStatus s.status c true, errhdr := h } := by
  have hengV : s.eng.isSome = true := by rw [heng, Option.isSome_some]
  rw [command_raises (c := c) (by rw [requireEngine_eq_ok.mpr heng, bind_ok, hbody]) hc, hengV]

/-- R184, R190: the session check comes next. -/
theorem command_invalidSession {sid : SessionIndex} (hbad : s.params.nsess ≤ sid.toNat ∨ s.session sid = none)
    {f : Engine → Word → Except Stop State} :
    command h s (s.requireEngine >>= fun e => s.requireSession sid >>= f e) =
      .next { s with status := recordStatus s.status .invalidSession true, errhdr := h } :=
  command_behindEngine heng (by rw [requireSession_eq_raise hbad, bind_raise])

/-- R190: with an open session a command ends as its body behind the session check says. -/
theorem command_behindSession {sid : SessionIndex} {r : Word} (hsid : sid.toNat < s.params.nsess)
    (hr : s.session sid = some r) {c : ErrorCode} {f : Engine → Word → Except Stop State} (hbody : f e r = raise c)
    (hc : c ≠ .ok := by decide) :
    command h s (s.requireEngine >>= fun e => s.requireSession sid >>= f e) =
      .next { s with status := recordStatus s.status c true, errhdr := h } :=
  command_behindEngine heng (by rw [requireSession_eq_ok.mpr ⟨hsid, hr⟩, bind_ok, hbody]) hc

end

/-- Settles O22: the session check of each command; behind its own, SNEW has no other left. -/
theorem invalidSessionIsReported : Obligations.InvalidSessionIsReported := by
  intro s e sid addr len bitlen heng
  refine ⟨fun hbad => ?_, fun hbad i hi => ?_, fun hsid t ht => ?_⟩
  · have hcheck : s.noSuchSession sid = true := decide_eq_true hbad
    exact command_behindEngine heng (by rw [hcheck, raiseIf_true, bind_raise])
  · simp only [List.mem_cons, List.not_mem_nil, or_false] at hi
    rcases hi with rfl | rfl | rfl | rfl <;> exact command_invalidSession heng hbad
  · rw [snewOpensTheSession s e sid heng hsid] at ht
    obtain rfl := Host.Outcome.next.inj ht
    rw [statusLast_recordStatus]
    decide

/-- Settles O23: the check of R145 stands right behind those of the engine and the session. -/
theorem bitLengthOutOfRangeIsReported : Obligations.BitLengthOutOfRangeIsReported := by
  intro s e sid r addr len bitlen heng hlong
  have hbl : bitLengthTooLong (sint64 bitlen) len = true := by
    rw [← Bool.not_eq_false, bitLengthTooLong_eq_false]
    omega
  refine ⟨fun hsid hr => command_behindSession heng hsid hr ?_, command_behindEngine heng ?_⟩
  all_goals rw [hbl, raiseIf_true, bind_raise]

/-- Settles O24: the check of R55 is the last one, behind that of R145 in the commands with a BITLEN operand. -/
theorem accessFaultIsReported : Obligations.AccessFaultIsReported := by
  intro s e sid r addr len bitlen heng houtside
  have hmem : bufferOutside s.params.memSize addr len = true := decide_eq_true houtside
  refine ⟨fun hsid hr => command_behindSession heng hsid hr ?_, command_behindEngine heng ?_, fun hbitlen => ?_⟩
  · rw [hmem, raiseIf_true, bind_raise]
  · rw [hmem, raiseIf_true, bind_raise]
  · have hbl := bitLengthTooLong_eq_false.mpr hbitlen
    refine ⟨fun hsid hr => command_behindSession heng hsid hr ?_, command_behindEngine heng ?_⟩
    all_goals rw [hbl, raiseIf_false, bind_ok, hmem, raiseIf_true, bind_raise]

end Sys2Proof.Machine

/-! ## Reset (spec/70_reset_and_hazards.md R210, R211) -/

namespace Sys2Proof.Machine

/-- R21: with an operation left the step performs it, the index having gone up by 1. -/
theorem step_of_nextOp {s : State} {op : HostOp} (hop : s.nextOp = some op) : step s = perform op s.advance := by
  rw [step, hop]

/-- R102: the ROM holds the reflection of each index. -/
theorem refl8Rom_eq_reflect (b : Byte) : (refl8Rom b).setWidth 64 = reflect (b.setWidth 64) 8 := by
  apply BitVec.eq_of_getLsbD_eq
  intro j hj
  rw [getLsbD_reflect, BitVec.getLsbD_setWidth, BitVec.getLsbD_setWidth]
  by_cases h8 : j < 8
  · rw [getLsbD_refl8Rom b j h8]
    simp [h8, show 7 - j < 64 by omega]
  · simp [h8, BitVec.getLsbD_of_ge (refl8Rom b) j (Nat.le_of_not_lt h8)]

/-- Settles O10: the reset state is the one that reset leaves of itself; what needs proof is the content of the ROM. -/
theorem resetStateIsTheTable : Obligations.ResetStateIsTheTable :=
  ⟨rfl, State.reset.enterReset_session, rfl, rfl, rfl, rfl, refl8Rom_eq_reflect, State.enterReset_dmem⟩

/-- R210: an operation that asserts reset enters the reset state, with or without a packet to abandon. -/
theorem perform_of_isReset {op : HostOp} (hreset : isReset op = true) (s : State) :
    perform op s = .next s.enterReset := by
  cases op with
  | reset | submitReset => rfl
  | submit | read | write | readMem | submitRace => cases hreset

/-- Settles O11: the step is the reset, which leaves DMEM, the parameters and the host's side. -/
theorem resetInputEntersTheResetState : Obligations.ResetInputEntersTheResetState := by
  intro s op hop hreset
  rw [step_of_nextOp hop, perform_of_isReset hreset]
  rfl

end Sys2Proof.Machine

/-! ## Raced packets (spec/70_reset_and_hazards.md R215, log entry 11) -/

namespace Sys2Proof.Machine

/-- The draws of a race stand at exactly the addresses written. -/
theorem forall_mem_drawBytes {P : Word → Prop} {n : Nat} {writes : List (Word × Byte)} :
    (∀ w ∈ drawBytes n writes, P w.1) ↔ ∀ w ∈ writes, P w.1 := by
  rw [← List.forall_mem_map, drawBytes_addresses, List.forall_mem_map]

/-- Settles O57: the memory is the one a raced packet sees, the draws made over the DMEM before. -/
theorem racedPacketRunsOnSomeMemory : Obligations.RacedPacketRunsOnSomeMemory := by
  intro s t p writes hs hop ht
  rw [step_of_nextOp hop] at ht
  obtain ⟨-, u, hu, rfl⟩ := runRace_next ht
  refine ⟨s.dmem.writes (drawBytes s.draws writes), u, fun a ha => ?_, hu, rfl⟩
  exact Memory.read_writes_other _ hs.dmem_wf (forall_mem_drawBytes (P := fun x => x.toNat ≠ a).mpr ha)

/-- R215: a packet raced by writes to addresses that exist runs on the state it sees, and the writes are settled. -/
theorem runRace_of_exist {s : State} {writes : List (Word × Byte)}
    (haddr : ∀ w ∈ writes, w.1.toNat < s.params.memSize) (p : Packet) :
    runRace p writes s = settleRace s.dmem writes (runPacket p (s.raceView writes)) :=
  if_pos (List.all_eq_true.mpr fun w hw => decide_eq_true (haddr w hw))

/-- Where address a stands last in a list of writes: the write that a later read of it sees. -/
def lastWrite : List (Word × Byte) → Nat → Nat
  | [], _ => 0
  | _ :: rest, a => if ∃ w ∈ rest, w.1.toNat = a then lastWrite rest a + 1 else 0

/-- The last write to an address that is written is one of the writes, and to that address. -/
theorem getElem?_lastWrite {writes : List (Word × Byte)} {a : Nat} (ha : ∃ w ∈ writes, w.1.toNat = a) :
    (writes.map fun w => w.1.toNat)[lastWrite writes a]? = some a := by
  induction writes with
  | nil => simp at ha
  | cons w rest ih =>
    rw [lastWrite, List.map_cons]
    split
    next hrest => exact ih hrest
    next hrest => simpa [hrest] using ha

/-- A written address reads as the draw of its last write. -/
theorem Memory.read_writes_drawBytes {m : Memory} (h : Memory.wf m) (n : Nat) {writes : List (Word × Byte)} {a : Nat}
    (ha : ∃ w ∈ writes, w.1.toNat = a) :
    (m.writes (drawBytes n writes)).read a = Config.racedByte (n + lastWrite writes a) := by
  induction writes generalizing m n with
  | nil => simp at ha
  | cons w rest ih =>
    rw [drawBytes, Memory.writes, lastWrite]
    split
    next hrest => rw [ih (Memory.wf_write h _ _) (n + 1) hrest, Nat.add_right_comm, Nat.add_assoc]
    next hrest =>
      have hw : w.1.toNat = a := by simpa [hrest] using ha
      have hother : ∀ d ∈ drawBytes (n + 1) rest, d.1.toNat ≠ a :=
        forall_mem_drawBytes (P := fun x => x.toNat ≠ a).mpr fun d hd hda => hrest ⟨d, hd, hda⟩
      rw [Memory.read_writes_other _ (Memory.wf_write h _ _) hother, Memory.read_write h, if_pos hw.symm, Nat.add_zero]

/-- Settles O60: the number of an address is that of its last write's draw. -/
theorem racedBytesAreUnusedDraws : Obligations.RacedBytesAreUnusedDraws := by
  intro s p writes hs hop haddr
  have hlast : ∀ w ∈ writes, (writes.map fun w => w.1.toNat)[lastWrite writes w.1.toNat]? = some w.1.toNat :=
    fun w hw => getElem?_lastWrite ⟨w, hw, rfl⟩
  refine ⟨s.advance.raceView writes, fun a => s.draws + lastWrite writes a, ?_, rfl, fun w hw => ⟨?_, ?_, ?_⟩,
    fun w hw w' hw' heq => ?_⟩
  · rw [step_of_nextOp hop]
    exact runRace_of_exist (s := s.advance) haddr p
  · exact Memory.read_writes_drawBytes hs.dmem_wf s.draws ⟨w, hw, rfl⟩
  · exact Nat.le_add_right _ _
  · obtain ⟨hlt, -⟩ := List.getElem?_eq_some_iff.mp (hlast w hw)
    rw [List.length_map] at hlt
    exact Nat.add_lt_add_left hlt s.draws
  · have hsome := hlast w hw
    rw [Nat.add_left_cancel heq, hlast w' hw'] at hsome
    exact BitVec.eq_of_toNat_eq (Option.some.inj hsome).symm

end Sys2Proof.Machine
